-- ==== Sys2Proof/Word.lean ====
section
/-! DEFINITION. The word types of the block: element values, command words, response words. -/

namespace Sys2Proof

/-- An element value, a slot's content, an ARG or a DATA field: an unsigned 32-bit number (00_scope.md R6 `W`,
section 6 "Values"). -/
abbrev Word := BitVec 32

/-- A command word, 40 bits (30_encoding.md R75). -/
abbrev CommandWord := BitVec 40

/-- A response word, 36 bits (30_encoding.md R80). -/
abbrev ResponseWord := BitVec 36

end Sys2Proof
end

