-- ==== Sys2Proof/Syntax.lean ====
section
/-! DEFINITION. The commands of the block, one constructor per row of spec/opcode_table.json (30_encoding.md R76). -/

namespace Sys2Proof

/-- The two queues, q0 and q1 (00_scope.md R6 `NQ`; 30_encoding.md R75: Q = 0 is q0, Q = 1 is q1). -/
inductive QueueId where
  | q0
  | q1
  deriving DecidableEq, Repr

/-- The queue that `q` is not. -/
def QueueId.other : QueueId → QueueId
  | .q0 => .q1
  | .q1 => .q0

/-- The number of a queue, 0 or 1. -/
def QueueId.number : QueueId → Nat
  | .q0 => 0
  | .q1 => 1

/-- The eleven commands (30_encoding.md R76). ARG is carried whole, as 32 bits (R78). The data beats of LOAD are not in
its command word (R78): they come on the wd channel (R73). -/
inductive Instr where
  /-- INIT q (R100). -/
  | init (q : QueueId)
  /-- PUSH_BACK q, value (R120). -/
  | pushBack (q : QueueId) (value : Word)
  /-- POP_BACK q (R124). -/
  | popBack (q : QueueId)
  /-- POP_FRONT q (R128). -/
  | popFront (q : QueueId)
  /-- GET q, index (R140). -/
  | get (q : QueueId) (index : Word)
  /-- FIND q, value (R144). -/
  | find (q : QueueId) (value : Word)
  /-- REMOVE_AT q, index (R148). -/
  | removeAt (q : QueueId) (index : Word)
  /-- MERGE d, s: `d` is field Q, the destination, `s` field Q2, the source (R79, R160). -/
  | merge (d : QueueId) (s : QueueId)
  /-- COPY_TO q (R180). -/
  | copyTo (q : QueueId)
  /-- LOAD q, V with n = length of V in ARG (R104). -/
  | load (q : QueueId) (length : Word)
  /-- SIZE q (R184). -/
  | size (q : QueueId)
  deriving DecidableEq, Repr

end Sys2Proof
end

