-- ==== Sys2Proof/WellFormed.lean ====
section
/-! DEFINITION. Which command words and which instructions are well formed (30_encoding.md R82, R83). The legality of a
word is written here from the list of R82, field by field; the decoder is written from the masks of R77. -/

namespace Sys2Proof

/-- OP is one of 0x1 to 0xB: 0x0 and 0xC to 0xF are reserved (30_encoding.md R82). -/
def opLegal (w : CommandWord) : Bool :=
  let op := (w.extractLsb' 36 4).toNat
  1 ≤ op && op ≤ 11

/-- RSV, bits 33:32, is 0 (30_encoding.md R82). -/
def rsvLegal (w : CommandWord) : Bool := w.extractLsb' 32 2 == 0#2

/-- Q2, bit 34, is 0 unless OP is MERGE (30_encoding.md R82). -/
def q2Legal (w : CommandWord) : Bool :=
  w.extractLsb' 34 1 == 0#1 || w.extractLsb' 36 4 == 0x8#4

/-- ARG is 0 where OP is INIT, POP_BACK, POP_FRONT, MERGE, COPY_TO or SIZE (30_encoding.md R82). -/
def argLegal (w : CommandWord) : Bool :=
  w.extractLsb' 0 32 == 0#32 ||
    !([0x1#4, 0x3#4, 0x4#4, 0x8#4, 0x9#4, 0xB#4].contains (w.extractLsb' 36 4))

/-- A command word is legal: none of the four conditions of 30_encoding.md R82 makes it illegal. -/
def wordLegal (w : CommandWord) : Bool := opLegal w && rsvLegal w && q2Legal w && argLegal w

/-- A well-formed instruction. Every field of `Instr` has exactly the values its encoding admits (30_encoding.md R75,
R78), so no term is ill formed: `MERGE q0, q0` and any index or length are legal words, and their faults depend on the
state or the operands when they are executed (R86, 60_exceptions.md R214). -/
def Instr.wf : Instr → Bool
  | .init _ => true
  | .pushBack _ _ => true
  | .popBack _ => true
  | .popFront _ => true
  | .get _ _ => true
  | .find _ _ => true
  | .removeAt _ _ => true
  | .merge _ _ => true
  | .copyTo _ => true
  | .load _ _ => true
  | .size _ => true

end Sys2Proof
end

