-- ==== Sys2Proof/Decode.lean ====
section
/-! DEFINITION. The command word: its fields (30_encoding.md R75), the opcode table (R76, R77), the decoder and the
encoder. The decoder is total on 40-bit words and reads no state (R83). -/

namespace Sys2Proof

/-- OP, bits 39:36 (30_encoding.md R75). -/
def opField (w : CommandWord) : BitVec 4 := w.extractLsb' 36 4

/-- A one-bit queue field: 0 is q0, 1 is q1 (30_encoding.md R75). -/
def queueOfBit (b : Bool) : QueueId := if b then .q1 else .q0

/-- The bit that names a queue (30_encoding.md R75). -/
def bitOfQueue : QueueId → BitVec 1
  | .q0 => 0#1
  | .q1 => 1#1

/-- Q, bit 35 (30_encoding.md R75). -/
def qField (w : CommandWord) : QueueId := queueOfBit (w.getLsbD 35)

/-- Q2, bit 34 (30_encoding.md R75). -/
def q2Field (w : CommandWord) : QueueId := queueOfBit (w.getLsbD 34)

/-- ARG, bits 31:0, taken as it stands (30_encoding.md R75, R78). -/
def argField (w : CommandWord) : Word := w.extractLsb' 0 32

/-- One row of the opcode table: the mnemonic, its match and its mask (30_encoding.md R77). -/
structure OpcodeRow where
  mnemonic : String
  pattern : CommandWord
  mask : CommandWord
  deriving DecidableEq, Repr

/-- A row takes a word exactly when `(w AND mask) == match` (30_encoding.md R77). -/
def OpcodeRow.accepts (r : OpcodeRow) (w : CommandWord) : Bool := w &&& r.mask == r.pattern

/-- INIT's row (30_encoding.md R77). -/
def rowInit : OpcodeRow := ⟨"INIT", 0x1000000000, 0xF7FFFFFFFF⟩
/-- PUSH_BACK's row (30_encoding.md R77). -/
def rowPushBack : OpcodeRow := ⟨"PUSH_BACK", 0x2000000000, 0xF700000000⟩
/-- POP_BACK's row (30_encoding.md R77). -/
def rowPopBack : OpcodeRow := ⟨"POP_BACK", 0x3000000000, 0xF7FFFFFFFF⟩
/-- POP_FRONT's row (30_encoding.md R77). -/
def rowPopFront : OpcodeRow := ⟨"POP_FRONT", 0x4000000000, 0xF7FFFFFFFF⟩
/-- GET's row (30_encoding.md R77). -/
def rowGet : OpcodeRow := ⟨"GET", 0x5000000000, 0xF700000000⟩
/-- FIND's row (30_encoding.md R77). -/
def rowFind : OpcodeRow := ⟨"FIND", 0x6000000000, 0xF700000000⟩
/-- REMOVE_AT's row (30_encoding.md R77). -/
def rowRemoveAt : OpcodeRow := ⟨"REMOVE_AT", 0x7000000000, 0xF700000000⟩
/-- MERGE's row (30_encoding.md R77). -/
def rowMerge : OpcodeRow := ⟨"MERGE", 0x8000000000, 0xF3FFFFFFFF⟩
/-- COPY_TO's row (30_encoding.md R77). -/
def rowCopyTo : OpcodeRow := ⟨"COPY_TO", 0x9000000000, 0xF7FFFFFFFF⟩
/-- LOAD's row (30_encoding.md R77). -/
def rowLoad : OpcodeRow := ⟨"LOAD", 0xA000000000, 0xF700000000⟩
/-- SIZE's row (30_encoding.md R77). -/
def rowSize : OpcodeRow := ⟨"SIZE", 0xB000000000, 0xF7FFFFFFFF⟩

/-- The opcode table, in the order of 30_encoding.md R77. -/
def opcodeTable : List OpcodeRow :=
  [rowInit, rowPushBack, rowPopBack, rowPopFront, rowGet, rowFind, rowRemoveAt, rowMerge, rowCopyTo, rowLoad, rowSize]

/-- The row of an instruction (30_encoding.md R76, R77). -/
def Instr.row : Instr → OpcodeRow
  | .init _ => rowInit
  | .pushBack _ _ => rowPushBack
  | .popBack _ => rowPopBack
  | .popFront _ => rowPopFront
  | .get _ _ => rowGet
  | .find _ _ => rowFind
  | .removeAt _ _ => rowRemoveAt
  | .merge _ _ => rowMerge
  | .copyTo _ => rowCopyTo
  | .load _ _ => rowLoad
  | .size _ => rowSize

/-- The decoder: the command of the row that takes the word, with its fields; `none` where no row takes it, an illegal
word (30_encoding.md R77, R78, R82, R83). -/
def decode (w : CommandWord) : Option Instr :=
  if rowInit.accepts w then some (.init (qField w))
  else if rowPushBack.accepts w then some (.pushBack (qField w) (argField w))
  else if rowPopBack.accepts w then some (.popBack (qField w))
  else if rowPopFront.accepts w then some (.popFront (qField w))
  else if rowGet.accepts w then some (.get (qField w) (argField w))
  else if rowFind.accepts w then some (.find (qField w) (argField w))
  else if rowRemoveAt.accepts w then some (.removeAt (qField w) (argField w))
  else if rowMerge.accepts w then some (.merge (qField w) (q2Field w))
  else if rowCopyTo.accepts w then some (.copyTo (qField w))
  else if rowLoad.accepts w then some (.load (qField w) (argField w))
  else if rowSize.accepts w then some (.size (qField w))
  else none

/-- The opcode of a command (30_encoding.md R76). -/
def Instr.opcode : Instr → BitVec 4
  | .init _ => 0x1
  | .pushBack _ _ => 0x2
  | .popBack _ => 0x3
  | .popFront _ => 0x4
  | .get _ _ => 0x5
  | .find _ _ => 0x6
  | .removeAt _ _ => 0x7
  | .merge _ _ => 0x8
  | .copyTo _ => 0x9
  | .load _ _ => 0xA
  | .size _ => 0xB

/-- The Q field of a command (30_encoding.md R76, R79). -/
def Instr.queueField : Instr → QueueId
  | .init q => q
  | .pushBack q _ => q
  | .popBack q => q
  | .popFront q => q
  | .get q _ => q
  | .find q _ => q
  | .removeAt q _ => q
  | .merge d _ => d
  | .copyTo q => q
  | .load q _ => q
  | .size q => q

/-- The Q2 field of a command: MERGE's source, 0 for every other command (30_encoding.md R76, R79). -/
def Instr.sourceField : Instr → BitVec 1
  | .merge _ s => bitOfQueue s
  | .init _ => 0
  | .pushBack _ _ => 0
  | .popBack _ => 0
  | .popFront _ => 0
  | .get _ _ => 0
  | .find _ _ => 0
  | .removeAt _ _ => 0
  | .copyTo _ => 0
  | .load _ _ => 0
  | .size _ => 0

/-- The ARG field of a command, 0 where it has no operand (30_encoding.md R76, R78). -/
def Instr.argument : Instr → Word
  | .pushBack _ value => value
  | .get _ index => index
  | .find _ value => value
  | .removeAt _ index => index
  | .load _ length => length
  | .init _ => 0
  | .popBack _ => 0
  | .popFront _ => 0
  | .merge _ _ => 0
  | .copyTo _ => 0
  | .size _ => 0

/-- The five fields of a command word put together, OP the most significant, RSV 0 (30_encoding.md R75). -/
def packCommand (op : BitVec 4) (q q2 : BitVec 1) (arg : Word) : CommandWord := op ++ q ++ q2 ++ 0#2 ++ arg

/-- The encoder: the command word of an instruction (30_encoding.md R75, R76). -/
def encode (i : Instr) : CommandWord :=
  packCommand i.opcode (bitOfQueue i.queueField) i.sourceField i.argument

/-- The instruction the decoder reads from the bits `w` of one opcode-table row, numbered as the table numbers them: a
command is ONE word of 40 bits (30_encoding.md R75, R84), and bits from `nbits` up are 0. A number with a bit above bit 39
is no command word. -/
def decodeTableWord (nbits w : Nat) : Option Instr :=
  let v := w % 2 ^ nbits
  if v < 2 ^ 40 then decode (BitVec.ofNat 40 v) else none

end Sys2Proof
end

