-- ==== Sys2Proof/Config.lean ====
section
/-! DEFINITION. The parameters of the block (00_scope.md section 4, R6) and the free values the spec leaves open. -/

namespace Sys2Proof.Config

/-- `W`: the width of an element (00_scope.md R6). -/
def elementWidth : Nat := 32

/-- `NQ`: the number of queues (00_scope.md R6). -/
def queueCount : Nat := 2

/-- The largest legal capacity, 2^32 - 1 (00_scope.md R6 `C`). -/
def capacityLimit : Nat := 4294967295

/-- `C` is a legal build parameter: 1 <= C <= 2^32 - 1 (00_scope.md R6, R7). -/
abbrev LegalCapacity (C : Nat) : Prop := 1 ≤ C ∧ C ≤ capacityLimit

/-- `AW`: the width of a `begin` register, max(1, ceil(log2 C)) bits (00_scope.md R6). -/
def beginWidth (C : Nat) : Nat := max 1 (Nat.clog 2 C)

/-- `SW`: the width of a `size` register, ceil(log2(C + 1)) bits (00_scope.md R6). -/
def sizeWidth (C : Nat) : Nat := Nat.clog 2 (C + 1)

/-- The capacity of `State.reset`. DESIGN CHOICE (log 1), unsafe: the spec leaves `C` OPEN (R6); 5 is the value its
test vectors use. Every other definition takes the capacity from the state. -/
def resetCapacity : Nat := 5

/-- STORAGE_INIT (00_scope.md R6, 10_state.md R38, 70_reset_and_hazards.md R230): the unspecified content of a slot after
a reset. A FREE VALUE (log 2), safe: `storageInit k n p` is slot `p` of queue number `n` after the block's `k`-th later
reset (`k = 0` for the first); it has no body, so nothing can be proved of it. -/
opaque storageInit : Nat → Nat → Nat → Word

end Sys2Proof.Config
end

