-- ==== Sys2Proof/Machine/State.lean ====
section
/-! DEFINITION. The state of the block (10_state.md R20), the host's side of its ports, the reasons a step stops, and the
state after reset (R38). -/

namespace Sys2Proof.Machine

/-- One queue's storage: its slots in order, slot `p` at position `p`; exactly `C` of them (10_state.md R21, 20_memory.md
R50; log 3). -/
abbrev Memory := List Word

/-- One queue: the three fields of the document's data model (10_state.md R21, R22, R23, R40). -/
structure Queue where
  /-- `storage[q]`, `C` slots of 32 bits (R21). -/
  storage : Memory
  /-- `begin[q]`: the physical slot of the back element, 0 <= begin < C (R22). -/
  begin : Nat
  /-- `size[q]`: the number of elements, 0 <= size <= C (R23). -/
  size : Nat
  deriving DecidableEq, Repr

/-- The outcome codes of a response (60_exceptions.md R200). Codes 0x5 to 0xE are never produced and have no
constructor. -/
inductive Status where
  | ok
  | capacityExceeded
  | empty
  | notFound
  | wouldExceedCapacity
  | faulted
  deriving DecidableEq, Repr

/-- The values of FAULT_CAUSE (60_exceptions.md R205). Causes 5 to 15 are never produced and have no constructor
(log 9). -/
inductive Cause where
  | none
  | illegalCommand
  | indexOutOfRange
  | mergeAlias
  | loadLength
  deriving DecidableEq, Repr

/-- A response: its STATUS and its DATA (30_encoding.md R80, R81). -/
structure Response where
  status : Status
  data : Word
  deriving DecidableEq, Repr

/-- What the host does next at the command port: it offers a command word, or it applies a reset between commands
(00_scope.md R10, 70_reset_and_hazards.md R230, R232). -/
inductive HostEvent where
  | command (w : CommandWord)
  | reset
  deriving DecidableEq, Repr

/-- The transaction in progress that waits for the host: none, or a LOAD into `q` of `n` beats of which `taken` have
come, the first first (10_state.md R37(b), 30_encoding.md R73, 40_construct.md R106). -/
inductive Transaction where
  | idle
  | loading (q : QueueId) (n : Nat) (taken : List Word)
  deriving DecidableEq, Repr

/-- The state of the machine (10_state.md R20), with its capacity, its transport state (R37(b)) and the host's side of its
ports. -/
structure State where
  /-- `C`, the capacity of both queues, fixed when the block is built (00_scope.md R3, R6, R7; log 1). -/
  capacity : Nat
  /-- Queue q0 (R20). -/
  q0 : Queue
  /-- Queue q1 (R20). -/
  q1 : Queue
  /-- FAULT (R32). -/
  fault : Bool
  /-- FAULT_CAUSE (R32). -/
  faultCause : Cause
  /-- The transaction that waits for data beats (R37(b)). -/
  xact : Transaction
  /-- The model's own counter of resets after the first; it selects the free values of STORAGE_INIT (log 2). -/
  resets : Nat
  /-- What the host does next at the command port and on `rst`, in order (R10; log 4). -/
  host : List HostEvent
  /-- The data beats the host delivers next on the wd channel, in order (30_encoding.md R73; log 4). -/
  wd : List Word
  /-- The responses the block has given that the host has not taken, oldest first (R80; log 4). -/
  rsp : List Response
  /-- The COPY_TO beats the block has given that the host has not taken, oldest first (R74; log 4). -/
  rd : List Word
  deriving DecidableEq, Repr

/-- Why the machine stops. -/
inductive Fault where
  /-- Raised by `step` while FAULT = 1 and the host applies no reset: "a state with FAULT = 1 has no step"
  (60_exceptions.md R212, 00_scope.md R10). `cause` is FAULT_CAUSE. Safe: the spec has no step there. -/
  | halted (cause : Cause)
  /-- Raised by a storage access at a slot the queue does not have ("no addresses at or above `C`", 20_memory.md R50). No
  state that keeps the invariants of 10_state.md R24 reaches it (log 7). Safe: the model stops. -/
  | slotOutOfRange
  deriving DecidableEq, Repr

/-- Why the machine has no meaning for an instruction. -/
inductive Refusal where
  /-- Raised by `exec` for an instruction without a meaning; no arm answers it. Safe: the model stops. -/
  | notModelled (mnemonic : String)
  deriving DecidableEq, Repr

/-- The storage of queue number `n` after the `k`-th later reset: every slot unspecified (10_state.md R38,
70_reset_and_hazards.md R230; log 2). -/
def unspecifiedStorage (C k n : Nat) : Memory := (List.range C).map (Config.storageInit k n)

/-- An empty queue after a reset: `begin = 0`, `size = 0`, storage unspecified (10_state.md R38). -/
def resetQueue (C k : Nat) (q : QueueId) : Queue :=
  { storage := unspecifiedStorage C k q.number, begin := 0, size := 0 }

/-- The reset state of a block of capacity `C` (10_state.md R38), with nothing offered by the host and nothing given
(log 4). -/
def State.resetWith (C : Nat) : State :=
  { capacity := C
    q0 := resetQueue C 0 .q0
    q1 := resetQueue C 0 .q1
    fault := false
    faultCause := .none
    xact := .idle
    resets := 0
    host := []
    wd := []
    rsp := []
    rd := [] }

/-- The machine right after reset (10_state.md R38), at the capacity of log 1. -/
def State.reset : State := State.resetWith Config.resetCapacity

end Sys2Proof.Machine
end

