-- ==== Sys2Proof/Machine/Flags.lean ====
section
/-! DEFINITION. The codes of statuses and causes, the response word, and the derived flags and status pins. -/

namespace Sys2Proof.Machine

/-- The number of a status (60_exceptions.md R200). -/
def Status.code : Status → BitVec 4
  | .ok => 0x0
  | .capacityExceeded => 0x1
  | .empty => 0x2
  | .notFound => 0x3
  | .wouldExceedCapacity => 0x4
  | .faulted => 0xF

/-- The number of a fault cause, the content of FAULT_CAUSE (60_exceptions.md R205). -/
def Cause.code : Cause → BitVec 4
  | .none => 0
  | .illegalCommand => 1
  | .indexOutOfRange => 2
  | .mergeAlias => 3
  | .loadLength => 4

/-- The 36-bit response word: STATUS in bits 35:32, DATA in bits 31:0 (30_encoding.md R80). -/
def Response.word (r : Response) : ResponseWord := r.status.code ++ r.data

/-- EMPTY (10_state.md R34). -/
def Queue.isEmpty (Q : Queue) : Bool := Q.size == 0

/-- FULL (10_state.md R34). -/
def Queue.isFull (C : Nat) (Q : Queue) : Bool := Q.size == C

/-- `empty_o`: bit q is EMPTY[q] (30_encoding.md R70). -/
def State.emptyPins (s : State) : BitVec 2 := BitVec.ofBool s.q1.isEmpty ++ BitVec.ofBool s.q0.isEmpty

/-- `full_o`: bit q is FULL[q] (30_encoding.md R70). -/
def State.fullPins (s : State) : BitVec 2 :=
  BitVec.ofBool (s.q1.isFull s.capacity) ++ BitVec.ofBool (s.q0.isFull s.capacity)

/-- `fault_o` (30_encoding.md R70, 10_state.md R32). -/
def State.faultPin (s : State) : Bool := s.fault

/-- `fault_cause_o` (30_encoding.md R70, 10_state.md R32). -/
def State.faultCausePins (s : State) : BitVec 4 := s.faultCause.code

end Sys2Proof.Machine
end

