-- ==== Sys2Proof/Machine/Ops.lean ====
section
/-! DEFINITION. The named operations over storage and registers: reading and writing slots, answering a command, taking
a fault, and reset, the only return from one. -/

namespace Sys2Proof.Machine

/-- `MemRead` of one whole slot (00_scope.md section 6, 20_memory.md R50, R56); no value where there is no such slot. -/
def Memory.read (m : Memory) (p : Nat) : Option Word := m[p]?

/-- `MemWrite` of one whole slot (00_scope.md section 6, 20_memory.md R50, R56); no result where there is no such slot. -/
def Memory.write (m : Memory) (p : Nat) (v : Word) : Option Memory :=
  if p < m.length then some (m.set p v) else none

/-- The values `vs` written to slots `p`, `p + 1`, ... in that order (the loops of 40_construct.md R104, 43_merge.md
R160). -/
def Memory.writeRun (m : Memory) (p : Nat) : List Word → Option Memory
  | [] => some m
  | v :: vs =>
    match Memory.write m p v with
    | none => none
    | some m' => Memory.writeRun m' (p + 1) vs

/-- The registers and storage of queue `q`. -/
def State.queue (s : State) : QueueId → Queue
  | .q0 => s.q0
  | .q1 => s.q1

/-- Queue `q` replaced. -/
def State.setQueue (s : State) (q : QueueId) (Q : Queue) : State :=
  match q with
  | .q0 => { s with q0 := Q }
  | .q1 => { s with q1 := Q }

/-- `respond(STATUS, data)`: the command ends with this response (00_scope.md section 6, 30_encoding.md R80). -/
def State.respond (s : State) (status : Status) (data : Word) : State :=
  { s with rsp := s.rsp ++ [{ status := status, data := data }] }

/-- Data beats given on the rd channel, in this order (30_encoding.md R74). -/
def State.emit (s : State) (beats : List Word) : State := { s with rd := s.rd ++ beats }

/-- `raise Fault(cause)`, fault entry: FAULT and FAULT_CAUSE are set, no queue changes, the response is (FAULTED, cause)
(60_exceptions.md R210, R211). -/
def State.raise (s : State) (cause : Cause) : State :=
  { s with fault := true, faultCause := cause }.respond .faulted (cause.code.zeroExtend 32)

/-- Reset, the only way out of the halted condition: both queues empty, FAULT and FAULT_CAUSE 0, storage unspecified, a
transaction in progress abandoned (70_reset_and_hazards.md R230, R231, R232; 60_exceptions.md R213; log 2, log 13). -/
def State.applyReset (s : State) : State :=
  { s with
    q0 := resetQueue s.capacity (s.resets + 1) .q0
    q1 := resetQueue s.capacity (s.resets + 1) .q1
    fault := false
    faultCause := .none
    xact := .idle
    resets := s.resets + 1 }

/-- The result of storage accesses handed on, or the stop where one of them had no slot (20_memory.md R50; log 7). -/
def orSlotFault {α : Type} (r : Option α) (k : α → Host.Outcome State Fault Refusal) :
    Host.Outcome State Fault Refusal :=
  match r with
  | none => .fault .slotOutOfRange
  | some a => k a

end Sys2Proof.Machine
end

