-- ==== Sys2Proof/Machine/Operands.lean ====
section
/-! DEFINITION. The indexing engine and the end pointers: how an operand that names a place becomes a slot, and the
reads and moves of elements by logical index. -/

namespace Sys2Proof.Machine

/-- Step down, `(begin - 1 + C) mod C`, formed without a negative number (20_memory.md R58). -/
def stepDown (C b : Nat) : Nat := (b + C - 1) % C

/-- Step up, `(begin + 1) mod C` (20_memory.md R58). -/
def stepUp (C b : Nat) : Nat := (b + 1) % C

/-- `phys(q, i) = (begin[q] + i) mod C` (20_memory.md R52, 10_state.md R25). -/
def Queue.phys (C : Nat) (Q : Queue) (i : Nat) : Nat := (Q.begin + i) % C

/-- BACK_PTR (10_state.md R27). -/
def Queue.backPtr (Q : Queue) : Nat := Q.begin

/-- FRONT_PTR, meaningful only when `size >= 1` (10_state.md R28). -/
def Queue.frontPtr (C : Nat) (Q : Queue) : Nat := (Q.begin + Q.size - 1) % C

/-- END_PTR (10_state.md R29). -/
def Queue.endPtr (C : Nat) (Q : Queue) : Nat := (Q.begin + Q.size) % C

/-- The bounds check of a host-supplied index: ARG as a natural number against `size` (20_memory.md R53). -/
def Queue.hasIndex (Q : Queue) (i : Word) : Bool := i.toNat < Q.size

/-- `elem(q, i)`: the slot of logical index `i` read (00_scope.md section 6). -/
def Queue.elem (C : Nat) (Q : Queue) (i : Nat) : Option Word := Memory.read Q.storage (Q.phys C i)

/-- The `n` elements from logical index `k` on, in order. -/
def Queue.readFrom (C : Nat) (Q : Queue) (k : Nat) : Nat → Option (List Word)
  | 0 => some []
  | n + 1 =>
    match Q.elem C k with
    | none => none
    | some v =>
      match Queue.readFrom C Q (k + 1) n with
      | none => none
      | some vs => some (v :: vs)

/-- `seq(q)`, the logical sequence: the elements at indices 0 to `size - 1` (10_state.md R26). -/
def Queue.seq (C : Nat) (Q : Queue) : Option (List Word) := Q.readFrom C 0 Q.size

/-- `seq(q)` of the queue `q` of a state (10_state.md R26). -/
def State.seq (s : State) (q : QueueId) : Option (List Word) := (s.queue q).seq s.capacity

/-- FIND's scan of the `n` logical indices from `k` on, in increasing order: the first that holds `v`, if any
(42_indexed.md R144). The outer `none` is an access to a slot that does not exist. -/
def Queue.scan (C : Nat) (Q : Queue) (v : Word) (k : Nat) : Nat → Option (Option Nat)
  | 0 => some none
  | n + 1 =>
    match Q.elem C k with
    | none => none
    | some w => if w = v then some (some k) else Queue.scan C Q v (k + 1) n

/-- REMOVE_AT's loop: for `n` logical indices from `k` on, ascending, the slot of index `k` takes the value at index
`k + 1` (42_indexed.md R148). -/
def Queue.shift (C : Nat) (Q : Queue) (k : Nat) : Nat → Option Queue
  | 0 => some Q
  | n + 1 =>
    match Q.elem C (k + 1) with
    | none => none
    | some v =>
      match Memory.write Q.storage (Q.phys C k) v with
      | none => none
      | some m => Queue.shift C { Q with storage := m } (k + 1) n

/-- The zipper of two lists: a pair at a time, the first list's element first, until the shorter ends; then the rest of
the longer (43_merge.md R164). -/
def zipper : List Word → List Word → List Word
  | [], B => B
  | a :: A, [] => a :: A
  | a :: A, b :: B => a :: b :: zipper A B

end Sys2Proof.Machine
end

