-- ==== Sys2Proof/Machine/Construct.lean ====
section
/-! DEFINITION. The construction commands INIT and LOAD (40_construct.md). -/

namespace Sys2Proof.Machine

/-- INIT q: `begin` and `size` become 0, no slot is written (40_construct.md R100, R101). -/
def execInit (q : QueueId) (s : State) : Host.Outcome State Fault Refusal :=
  .next ((s.setQueue q { s.queue q with begin := 0, size := 0 }).respond .ok 0)

/-- The rest of a LOAD that has passed its check: the beats still to come are taken from the wd channel; when all `n`
have come the whole effect happens at once, and until then the transaction waits (40_construct.md R104, R106,
30_encoding.md R73, 70_reset_and_hazards.md R236; log 6). -/
def State.takeBeats (q : QueueId) (n : Nat) (taken : List Word) (s : State) : Host.Outcome State Fault Refusal :=
  let V := taken ++ s.wd.take (n - taken.length)
  let s' := { s with wd := s.wd.drop (n - taken.length) }
  if V.length < n then
    .next { s' with xact := .loading q n V }
  else
    orSlotFault (Memory.writeRun (s.queue q).storage 0 V) fun m =>
      .next (({ s' with xact := .idle }.setQueue q { storage := m, begin := 0, size := n }).respond .ok 0)

/-- LOAD q, V with n in ARG: the length check before any beat is taken, then the beats (40_construct.md R104, R105). -/
def execLoad (q : QueueId) (length : Word) (s : State) : Host.Outcome State Fault Refusal :=
  if s.capacity < length.toNat then .next (s.raise .loadLength)
  else s.takeBeats q length.toNat []

end Sys2Proof.Machine
end

