-- ==== Sys2Proof/Machine/Ends.lean ====
section
/-! DEFINITION. The end commands PUSH_BACK, POP_BACK, POP_FRONT (41_push_pop.md). -/

namespace Sys2Proof.Machine

/-- PUSH_BACK q, v (41_push_pop.md R120, R121, R122). -/
def execPushBack (q : QueueId) (value : Word) (s : State) : Host.Outcome State Fault Refusal :=
  let Q := s.queue q
  if Q.size = s.capacity then .next (s.respond .capacityExceeded 0)
  else
    let b := stepDown s.capacity Q.begin
    orSlotFault (Memory.write Q.storage b value) fun m =>
      .next ((s.setQueue q { storage := m, begin := b, size := Q.size + 1 }).respond .ok 0)

/-- POP_BACK q: no slot is written (41_push_pop.md R124, R125; 90_conflicts.md C2). -/
def execPopBack (q : QueueId) (s : State) : Host.Outcome State Fault Refusal :=
  let Q := s.queue q
  if Q.size = 0 then .next (s.respond .empty 0)
  else
    orSlotFault (Memory.read Q.storage Q.backPtr) fun v =>
      .next ((s.setQueue q { Q with begin := stepUp s.capacity Q.begin, size := Q.size - 1 }).respond .ok v)

/-- POP_FRONT q: `begin` is unchanged and no slot is written (41_push_pop.md R128, R129). -/
def execPopFront (q : QueueId) (s : State) : Host.Outcome State Fault Refusal :=
  let Q := s.queue q
  if Q.size = 0 then .next (s.respond .empty 0)
  else
    orSlotFault (Memory.read Q.storage (Q.frontPtr s.capacity)) fun v =>
      .next ((s.setQueue q { Q with size := Q.size - 1 }).respond .ok v)

end Sys2Proof.Machine
end

