-- ==== Sys2Proof/Machine/Indexed.lean ====
section
/-! DEFINITION. The indexed commands GET, FIND, REMOVE_AT (42_indexed.md). -/

namespace Sys2Proof.Machine

/-- GET q, i (42_indexed.md R140, R141). -/
def execGet (q : QueueId) (index : Word) (s : State) : Host.Outcome State Fault Refusal :=
  let Q := s.queue q
  if Q.hasIndex index then
    orSlotFault (Q.elem s.capacity index.toNat) fun v => .next (s.respond .ok v)
  else .next (s.raise .indexOutOfRange)

/-- FIND q, v: the least logical index that holds `v`, or NOT_FOUND (42_indexed.md R144, R145). -/
def execFind (q : QueueId) (value : Word) (s : State) : Host.Outcome State Fault Refusal :=
  let Q := s.queue q
  orSlotFault (Q.scan s.capacity value 0 Q.size) fun found =>
    match found with
    | some k => .next (s.respond .ok (BitVec.ofNat 32 k))
    | none => .next (s.respond .notFound 0)

/-- REMOVE_AT q, i: every element after index `i` moves one index down, ascending, then `size` is decremented; `begin` is
unchanged (42_indexed.md R148, R149, R150). -/
def execRemoveAt (q : QueueId) (index : Word) (s : State) : Host.Outcome State Fault Refusal :=
  let Q := s.queue q
  if Q.hasIndex index then
    orSlotFault (Q.shift s.capacity index.toNat (Q.size - 1 - index.toNat)) fun Q' =>
      .next ((s.setQueue q { Q' with size := Q.size - 1 }).respond .ok 0)
  else .next (s.raise .indexOutOfRange)

end Sys2Proof.Machine
end

