-- ==== Sys2Proof/Machine/Inspect.lean ====
section
/-! DEFINITION. The inspection commands COPY_TO and SIZE (44_inspect.md). -/

namespace Sys2Proof.Machine

/-- COPY_TO q: the response carries `size`, then the sequence is sent on the rd channel (44_inspect.md R180, 30_encoding.md
R74). -/
def execCopyTo (q : QueueId) (s : State) : Host.Outcome State Fault Refusal :=
  let Q := s.queue q
  orSlotFault (Q.seq s.capacity) fun A => .next ((s.respond .ok (BitVec.ofNat 32 Q.size)).emit A)

/-- SIZE q (44_inspect.md R184). -/
def execSize (q : QueueId) (s : State) : Host.Outcome State Fault Refusal :=
  .next (s.respond .ok (BitVec.ofNat 32 (s.queue q).size))

end Sys2Proof.Machine
end

