-- ==== Sys2Proof/Machine/Merge.lean ====
section
/-! DEFINITION. The MERGE command (43_merge.md). -/

namespace Sys2Proof.Machine

/-- MERGE d, s: alias check, capacity check, both sequences read, then the zipper written to the destination's slots from
0 up; the source keeps its `begin` and its storage (43_merge.md R160 to R166). -/
def execMerge (d : QueueId) (src : QueueId) (s : State) : Host.Outcome State Fault Refusal :=
  let D := s.queue d
  let S := s.queue src
  if d = src then .next (s.raise .mergeAlias)
  else if s.capacity < D.size + S.size then .next (s.respond .wouldExceedCapacity 0)
  else
    orSlotFault (D.seq s.capacity) fun A =>
      orSlotFault (S.seq s.capacity) fun B =>
        orSlotFault (Memory.writeRun D.storage 0 (zipper A B)) fun m =>
          .next (((s.setQueue d { storage := m, begin := 0, size := D.size + S.size }).setQueue src
            { S with size := 0 }).respond .ok 0)

end Sys2Proof.Machine
end

