-- ==== Sys2Proof/Machine/Dispatch.lean ====
section
/-! DEFINITION. One arm per command: the meaning it calls. -/

namespace Sys2Proof.Machine

/-- What a legal command does once it has been accepted (60_exceptions.md R214, steps 2 to 4). -/
def exec (i : Instr) (s : State) : Host.Outcome State Fault Refusal :=
  match i with
  | .init q => Sys2Proof.Machine.execInit q s
  | .pushBack q value => Sys2Proof.Machine.execPushBack q value s
  | .popBack q => Sys2Proof.Machine.execPopBack q s
  | .popFront q => Sys2Proof.Machine.execPopFront q s
  | .get q index => Sys2Proof.Machine.execGet q index s
  | .find q value => Sys2Proof.Machine.execFind q value s
  | .removeAt q index => Sys2Proof.Machine.execRemoveAt q index s
  | .merge d src => Sys2Proof.Machine.execMerge d src s
  | .copyTo q => Sys2Proof.Machine.execCopyTo q s
  | .load q length => Sys2Proof.Machine.execLoad q length s
  | .size q => Sys2Proof.Machine.execSize q s

end Sys2Proof.Machine
end

