-- ==== Sys2Proof/Machine/Accept.lean ====
section
/-! DEFINITION. How a command comes to run: the acceptance of a command word, the order of what a step looks at, and how
the host presents a command. -/

namespace Sys2Proof.Machine

/-- A command word that passes on the cmd channel: decoded first, an illegal word is a fault, a legal one is executed
(60_exceptions.md R214, R206). -/
def State.accept (w : CommandWord) (s : State) : Host.Outcome State Fault Refusal :=
  match decode w with
  | none => .next (s.raise .illegalCommand)
  | some i => exec i s

/-- The data beats that are an operand of the command are at hand. Only a LOAD of legal length has such an operand, its
sequence V of n values (40_construct.md R104, R106, 30_encoding.md R84); a longer one is rejected without them (R105). -/
def State.hasOperands (s : State) : Instr → Bool
  | .init _ => true
  | .pushBack _ _ => true
  | .popBack _ => true
  | .popFront _ => true
  | .get _ _ => true
  | .find _ _ => true
  | .removeAt _ _ => true
  | .merge _ _ => true
  | .copyTo _ => true
  | .load _ length => s.capacity < length.toNat || length.toNat ≤ s.wd.length
  | .size _ => true

/-- The host presents the command word `w` with its operands, as a transaction begins (00_scope.md R8, 40_construct.md
R106; log 6). An illegal word has none. -/
def State.presents (s : State) (w : CommandWord) : Bool :=
  match decode w with
  | none => true
  | some i => s.hasOperands i

/-- The step of a block to which the host applies no reset. Halted: there is no step (60_exceptions.md R212). A LOAD in
progress, a state of the pin level only: it takes the beats that have come, and no command is accepted (30_encoding.md
R72, 40_construct.md R106). Otherwise the command the host presents with its operands is accepted: the transaction level
has no stalls (70_reset_and_hazards.md R236; log 6). With nothing presented the block idles and keeps all state
(60_exceptions.md R223). -/
def State.proceed (s : State) : Host.Outcome State Fault Refusal :=
  if s.fault then .fault (.halted s.faultCause)
  else
    match s.xact with
    | .loading q n taken => s.takeBeats q n taken
    | .idle =>
      match s.host with
      | .command w :: rest => if s.presents w then { s with host := rest }.accept w else .next s
      | .reset :: _ => .next s
      | [] => .next s

/-- One step: a reset, where the host applies one now, goes before everything else (70_reset_and_hazards.md R230, R232);
else the block proceeds. -/
def State.advance (s : State) : Host.Outcome State Fault Refusal :=
  match s.host with
  | .reset :: rest => .next { s with host := rest }.applyReset
  | .command _ :: _ => s.proceed
  | [] => s.proceed

/-- The data beats that go with a command word offered by `State.offer`: `n` beats of 0 for a LOAD of a legal length, whose
beats are part of its input (30_encoding.md R73, R84; log 12); none for any other word. -/
def offeredBeats (C : Nat) (w : CommandWord) : List Word :=
  match decode w with
  | some (.load _ length) => if length.toNat ≤ C then List.replicate length.toNat 0 else []
  | _ => []

/-- The state in which the host offers the command word `w` next, with its data beats (log 12). -/
def State.offer (s : State) (w : CommandWord) : State :=
  { s with host := .command w :: s.host, wd := offeredBeats s.capacity w ++ s.wd }

end Sys2Proof.Machine
end

