-- ==== Sys2Proof/Machine/Step.lean ====
section
/-! DEFINITION. The step of the machine, one transaction at a time (00_scope.md R8), and the placing of a command where
the next step takes it. -/

namespace Sys2Proof.Machine

/-- One step (00_scope.md R10). -/
def step (s : State) : Host.Outcome State Fault Refusal := s.advance

/-- `s` with the command whose bits are `w` (bits from `nbits` up being 0) offered by the host as its next event: from a
state that is not halted and has no LOAD in progress, the next step accepts exactly it (log 4, log 12). -/
def State.withFetchWord (s : State) (nbits w : Nat) : State := s.offer (BitVec.ofNat 40 (w % 2 ^ nbits))

end Sys2Proof.Machine
end

