-- ==== Sys2Proof/Machine/Assembler.lean ====
section
/-! DEFINITION. The assembler notation of 30_encoding.md R85: one command a line, read into its command word and its data
beats. Where R85 leaves the spelling open, log 15 says what is taken. -/

namespace Sys2Proof.Machine

/-- A token of a line: a run of name or number characters, or one of the marks `,`, `[`, `]`, `=`. -/
inductive Token where
  | word (cs : List Char)
  | comma
  | openList
  | closeList
  | equals
  deriving DecidableEq, Repr

/-- What the host presents for one line: the command word and the data beats that go with it (30_encoding.md R73, R85). -/
structure HostInput where
  word : CommandWord
  beats : List Word
  deriving DecidableEq, Repr

/-- A finished run of characters as a token, put before the tokens that follow. -/
def closeWord (run : List Char) (rest : List Token) : List Token :=
  if run.isEmpty then rest else .word run :: rest

/-- The tokens of a line; `run` is the word being read. A `;` starts a comment (30_encoding.md R85); blanks and tabs
separate words (log 15). -/
def tokens (run : List Char) : List Char → List Token
  | [] => closeWord run []
  | c :: cs =>
    if c = ';' then closeWord run []
    else if c = ' ' ∨ c = '\t' then closeWord run (tokens [] cs)
    else if c = ',' then closeWord run (.comma :: tokens [] cs)
    else if c = '[' then closeWord run (.openList :: tokens [] cs)
    else if c = ']' then closeWord run (.closeList :: tokens [] cs)
    else if c = '=' then closeWord run (.equals :: tokens [] cs)
    else tokens (run ++ [c]) cs

/-- The value of a digit in base 16, either case (log 15). -/
def digitValue (c : Char) : Option Nat :=
  if '0' ≤ c ∧ c ≤ '9' then some (c.toNat - 48)
  else if 'a' ≤ c ∧ c ≤ 'f' then some (c.toNat - 87)
  else if 'A' ≤ c ∧ c ≤ 'F' then some (c.toNat - 55)
  else none

/-- The number written by digits of a base, with what was read before them. -/
def digitsValue (base acc : Nat) : List Char → Option Nat
  | [] => some acc
  | c :: cs =>
    match digitValue c with
    | none => none
    | some d => if d < base then digitsValue base (acc * base + d) cs else none

/-- A number in [0, 2^32 - 1], decimal or `0x` hexadecimal (30_encoding.md R85). -/
def numberOf (cs : List Char) : Option Word :=
  let v := match cs with
    | [] => none
    | ['0', 'x'] => none
    | '0' :: 'x' :: ds => digitsValue 16 0 ds
    | ds => digitsValue 10 0 ds
  match v with
  | none => none
  | some n => if n < 2 ^ 32 then some (BitVec.ofNat 32 n) else none

/-- A queue operand, `q0` or `q1` (30_encoding.md R85). -/
def queueOfName (cs : List Char) : Option QueueId :=
  if cs = ['q', '0'] then some .q0 else if cs = ['q', '1'] then some .q1 else none

/-- The rest of a LOAD's list, after at least one value, up to its `]` at the end of the line (30_encoding.md R85). -/
def moreValues : List Token → Option (List Word)
  | [.closeList] => some []
  | .comma :: .word cs :: rest =>
    match numberOf cs, moreValues rest with
    | some v, some vs => some (v :: vs)
    | _, _ => none
  | _ => none

/-- A LOAD's list after its `[`; `[]` is the empty list (30_encoding.md R85). -/
def listValues : List Token → Option (List Word)
  | [.closeList] => some []
  | .word cs :: rest =>
    match numberOf cs, moreValues rest with
    | some v, some vs => some (v :: vs)
    | _, _ => none
  | _ => none

/-- The commands whose one operand is a queue, by mnemonic (30_encoding.md R85). -/
def queueCommand (name : List Char) : Option (QueueId → Instr) :=
  if name = "INIT".toList then some .init
  else if name = "POP_BACK".toList then some .popBack
  else if name = "POP_FRONT".toList then some .popFront
  else if name = "COPY_TO".toList then some .copyTo
  else if name = "SIZE".toList then some .size
  else none

/-- The commands with a queue and a number, by mnemonic (30_encoding.md R85). -/
def numberCommand (name : List Char) : Option (QueueId → Word → Instr) :=
  if name = "PUSH_BACK".toList then some .pushBack
  else if name = "GET".toList then some .get
  else if name = "FIND".toList then some .find
  else if name = "REMOVE_AT".toList then some .removeAt
  else none

/-- A command without data beats. -/
def plainInput (i : Instr) : HostInput := { word := encode i, beats := [] }

/-- A LOAD with its values; the length of the list goes to ARG (30_encoding.md R85). A list too long for ARG is no line. -/
def loadInput (q : QueueId) (vs : List Word) : Option HostInput :=
  if vs.length < 2 ^ 32 then some { word := encode (.load q (BitVec.ofNat 32 vs.length)), beats := vs } else none

/-- One command line, tokenised: `MNEMONIC operands`, operands separated by commas (30_encoding.md R85). -/
def parseTokens : List Token → Option HostInput
  | [.word name, .word q] =>
    match queueCommand name, queueOfName q with
    | some f, some q => some (plainInput (f q))
    | _, _ => none
  | [.word name, .word q, .comma, .word x] =>
    match queueOfName q with
    | none => none
    | some q =>
      if name = "MERGE".toList then
        match queueOfName x with
        | some src => some (plainInput (.merge q src))
        | none => none
      else
        match numberCommand name, numberOf x with
        | some f, some v => some (plainInput (f q v))
        | _, _ => none
  | [.word name, .word q, .comma, .word n, .equals, .word x] =>
    if name = "LOAD".toList ∧ n = ['n'] then
      match queueOfName q, numberOf x with
      | some q, some v => some (plainInput (.load q v))
      | _, _ => none
    else none
  | .word name :: .word q :: .comma :: .openList :: rest =>
    if name = "LOAD".toList then
      match queueOfName q, listValues rest with
      | some q, some vs => loadInput q vs
      | _, _ => none
    else none
  | _ => none

/-- One line: nothing for a line that is blank or only a comment, else its command; `none` where it is no line of the
notation (30_encoding.md R85). -/
def assembleLine (line : List Char) : Option (List HostInput) :=
  match tokens [] line with
  | [] => some []
  | ts => (parseTokens ts).map fun h => [h]

/-- A program, "a plain list" of lines (30_encoding.md R85). -/
def assemble : List (List Char) → Option (List HostInput)
  | [] => some []
  | line :: rest =>
    match assembleLine line, assemble rest with
    | some hs, some more => some (hs ++ more)
    | _, _ => none

/-- The state in which the host will present the commands of a program, in order, with their data beats (00_scope.md R10,
10_state.md R33; log 4). -/
def State.withProgram (s : State) (program : List HostInput) : State :=
  { s with
    host := program.map fun h => .command h.word
    wd := program.flatMap HostInput.beats }

end Sys2Proof.Machine
end

