-- ==== Sys2Proof/Machine/ListMachine.lean ====
section
/-! DEFINITION. The abstract machine of 10_state.md R39: its state is the pair of lists `(seq(0), seq(1))`, its commands
are the list laws that end each command rule. It is a check of the model, not its definition (R40). -/

namespace Sys2Proof.Machine

/-- The two logical sequences (10_state.md R39). -/
structure Lists where
  q0 : List Word
  q1 : List Word
  deriving DecidableEq, Repr

/-- The visible part of an outcome: the response, the COPY_TO stream, and the cause where a fault is raised (10_state.md
R39). -/
structure Visible where
  response : Response
  stream : List Word
  cause : Option Cause
  deriving DecidableEq, Repr

/-- The sequence of one queue. -/
def Lists.get (x : Lists) : QueueId → List Word
  | .q0 => x.q0
  | .q1 => x.q1

/-- The sequence of one queue replaced. -/
def Lists.set (x : Lists) (q : QueueId) (L : List Word) : Lists :=
  match q with
  | .q0 => { x with q0 := L }
  | .q1 => { x with q1 := L }

/-- An answer with a status, and no stream. -/
def Visible.answer (status : Status) (data : Word) : Visible :=
  { response := { status := status, data := data }, stream := [], cause := none }

/-- A fault: the response (FAULTED, cause) (60_exceptions.md R211). -/
def Visible.raised (cause : Cause) : Visible :=
  { response := { status := .faulted, data := cause.code.zeroExtend 32 }, stream := [], cause := some cause }

/-- The list laws: what a command does to the two sequences and what the host sees of it, in a block of capacity `C`; `V`
is what the host delivers on the wd channel (R100, R104, R120, R124, R128, R140, R144, R148, R160, R180, R184). -/
def listStep (C : Nat) (V : List Word) (i : Instr) (x : Lists) : Lists × Visible :=
  match i with
  | .init q => (x.set q [], .answer .ok 0)
  | .pushBack q value =>
    if (x.get q).length = C then (x, .answer .capacityExceeded 0) else (x.set q (value :: x.get q), .answer .ok 0)
  | .popBack q =>
    match x.get q with
    | [] => (x, .answer .empty 0)
    | v :: L => (x.set q L, .answer .ok v)
  | .popFront q =>
    match (x.get q).getLast? with
    | none => (x, .answer .empty 0)
    | some v => (x.set q (x.get q).dropLast, .answer .ok v)
  | .get q index =>
    match (x.get q)[index.toNat]? with
    | none => (x, .raised .indexOutOfRange)
    | some v => (x, .answer .ok v)
  | .find q value =>
    match (x.get q).findIdx? (· == value) with
    | none => (x, .answer .notFound 0)
    | some k => (x, .answer .ok (BitVec.ofNat 32 k))
  | .removeAt q index =>
    if index.toNat < (x.get q).length then (x.set q ((x.get q).eraseIdx index.toNat), .answer .ok 0)
    else (x, .raised .indexOutOfRange)
  | .merge d src =>
    if d = src then (x, .raised .mergeAlias)
    else if C < (x.get d).length + (x.get src).length then (x, .answer .wouldExceedCapacity 0)
    else ((x.set d (zipper (x.get d) (x.get src))).set src [], .answer .ok 0)
  | .copyTo q =>
    (x, { Visible.answer .ok (BitVec.ofNat 32 (x.get q).length) with stream := x.get q })
  | .load q length =>
    if C < length.toNat then (x, .raised .loadLength) else (x.set q (V.take length.toNat), .answer .ok 0)
  | .size q => (x, .answer .ok (BitVec.ofNat 32 (x.get q).length))

end Sys2Proof.Machine
end

