-- ==== Sys2Proof/Machine/Invariants.lean ====
section
/-! DEFINITION. The invariants of the block (10_state.md R24, R32, R37; 40_construct.md R106). -/

namespace Sys2Proof.Machine

/-- The form of a queue's storage: exactly `C` slots (10_state.md R21; log 3). -/
def Memory.wf (C : Nat) (m : Memory) : Bool := m.length == C

/-- A queue keeps 10_state.md R24: `C` slots, `begin < C`, `size <= C`. -/
abbrev Queue.Wf (C : Nat) (Q : Queue) : Prop := Memory.wf C Q.storage = true ∧ Q.begin < C ∧ Q.size ≤ C

/-- A LOAD that waits has passed its length check, still misses a beat, and has not faulted (40_construct.md R105,
R106). -/
def Transaction.wf (C : Nat) (fault : Bool) : Transaction → Bool
  | .idle => true
  | .loading _ n taken => n ≤ C && taken.length < n && !fault

/-- The invariants: a legal capacity (00_scope.md R6, R7), both queues within R24, FAULT_CAUSE reading 0 exactly while FAULT
= 0 (10_state.md R32), and a waiting LOAD as it must be. -/
abbrev State.Wf (s : State) : Prop :=
  Config.LegalCapacity s.capacity ∧
  s.q0.Wf s.capacity ∧
  s.q1.Wf s.capacity ∧
  (s.fault = false ↔ s.faultCause = .none) ∧
  s.xact.wf s.capacity s.fault = true

end Sys2Proof.Machine
end

