-- ==== Sys2Proof/Machine/Pins.lean ====
section
/-! DEFINITION. The pin level (30_encoding.md R70 to R74, 70_reset_and_hazards.md R230, R232, R236): the same state, one
rising clock edge at a time. A channel's `valid` and its data are one optional value: `some w` is valid = 1 with `w` on
the wires, `none` is valid = 0, where the spec gives the wires no value (log 11). -/

namespace Sys2Proof.Machine

/-- The input pins at a rising edge (30_encoding.md R70). -/
structure PinsIn where
  /-- `rst` -/
  rst : Bool
  /-- `cmd_valid` with `cmd_word` -/
  cmd : Option CommandWord
  /-- `wd_valid` with `wd_data` -/
  wd : Option Word
  /-- `rsp_ready` -/
  rspReady : Bool
  /-- `rd_ready` -/
  rdReady : Bool
  deriving DecidableEq, Repr

/-- The output pins (30_encoding.md R70). -/
structure PinsOut where
  /-- `cmd_ready` -/
  cmdReady : Bool
  /-- `wd_ready` -/
  wdReady : Bool
  /-- `rsp_valid` with `rsp_word` -/
  rsp : Option ResponseWord
  /-- `rd_valid` with `rd_data` -/
  rd : Option Word
  /-- `fault_o` -/
  faultO : Bool
  /-- `fault_cause_o` -/
  faultCauseO : BitVec 4
  /-- `empty_o` -/
  emptyO : BitVec 2
  /-- `full_o` -/
  fullO : BitVec 2
  deriving DecidableEq, Repr

/-- The block at the pin level: its state, and for how many more clock cycles it computes, driving no handshake: a finite
number, which the spec does not give (10_state.md R37(b), 70_reset_and_hazards.md R241; log 11). -/
structure PinState where
  block : State
  working : Nat
  deriving DecidableEq, Repr

/-- A transaction is in progress: a LOAD waits for beats, a response or a COPY_TO beat waits to be taken (30_encoding.md
R72). -/
def State.inTransaction (s : State) : Bool := !(s.xact == .idle && s.rsp.isEmpty && s.rd.isEmpty)

/-- `cmd_ready`: 1 only when `rst` is 0, FAULT is 0 and no transaction is in progress (30_encoding.md R72,
60_exceptions.md R212, R223). -/
def PinState.cmdReady (p : PinState) (rst : Bool) : Bool :=
  !rst && !p.block.fault && p.working == 0 && !p.block.inTransaction

/-- `wd_ready`: 1 only while a LOAD waits for beats (30_encoding.md R73, 70_reset_and_hazards.md R232). -/
def PinState.wdReady (p : PinState) (rst : Bool) : Bool :=
  !rst && p.working == 0 && p.block.xact != .idle

/-- The response on offer: the oldest not taken (30_encoding.md R72, R80, 70_reset_and_hazards.md R232). -/
def PinState.rspOffer (p : PinState) (rst : Bool) : Option ResponseWord :=
  if rst || p.working != 0 then none else p.block.rsp.head?.map Response.word

/-- The COPY_TO beat on offer: the oldest not taken, after the response has passed (30_encoding.md R74,
70_reset_and_hazards.md R232). -/
def PinState.rdOffer (p : PinState) (rst : Bool) : Option Word :=
  if rst || p.working != 0 || !p.block.rsp.isEmpty then none else p.block.rd.head?

/-- The output pins in a state, with `rst` as given (30_encoding.md R70). -/
def PinState.pins (p : PinState) (rst : Bool) : PinsOut :=
  { cmdReady := p.cmdReady rst
    wdReady := p.wdReady rst
    rsp := p.rspOffer rst
    rd := p.rdOffer rst
    faultO := p.block.faultPin
    faultCauseO := p.block.faultCausePins
    emptyO := p.block.emptyPins
    fullO := p.block.fullPins }

/-- After a beat has passed: the block computes for `pace` more cycles, but only inside a transaction; between transactions
it idles with `cmd_ready` = 1 (60_exceptions.md R223, 70_reset_and_hazards.md R241). -/
def settle (pace : Nat) (o : Host.Outcome State Fault Refusal) : Host.Outcome PinState Fault Refusal :=
  match o with
  | .next t => .next { block := t, working := if t.inTransaction then pace else 0 }
  | .fault r => .fault r
  | .refused r => .refused r

/-- Reset at a rising edge: the reset state; what the interrupted transaction had still to give is dropped
(70_reset_and_hazards.md R230, R232). -/
def PinState.resetEdge (p : PinState) : PinState :=
  { block := { p.block.applyReset with rsp := [], rd := [] }, working := 0 }

/-- One rising edge with the input pins `i`; `pace` is for how many cycles the block computes after a beat that passes at
this edge, a number free at every such edge (70_reset_and_hazards.md R241; log 11). On each channel a word passes exactly
when valid and ready are both 1 (30_encoding.md R71); a channel whose partner is not ready waits without limit
(70_reset_and_hazards.md R236). -/
def PinState.edge (i : PinsIn) (pace : Nat) (p : PinState) : Host.Outcome PinState Fault Refusal :=
  if i.rst then .next p.resetEdge
  else if p.working != 0 then .next { p with working := p.working - 1 }
  else if p.cmdReady i.rst then
    match i.cmd with
    | some w => settle pace ({ p.block with wd := [] }.accept w)
    | none => .next p
  else
    match p.block.xact with
    | .loading q n taken =>
      match i.wd with
      | some v => settle pace ({ p.block with wd := [v] }.takeBeats q n taken)
      | none => .next p
    | .idle =>
      match p.block.rsp with
      | _ :: rest => if i.rspReady then settle pace (.next { p.block with rsp := rest }) else .next p
      | [] =>
        match p.block.rd with
        | _ :: rest => if i.rdReady then settle pace (.next { p.block with rd := rest }) else .next p
        | [] => .next p

/-- Rising edges one after the other, each with its input pins and the block's pace. -/
def PinState.feed (p : PinState) : List (PinsIn × Nat) → Host.Outcome PinState Fault Refusal
  | [] => .next p
  | (i, pace) :: is =>
    match p.edge i pace with
    | .next p' => PinState.feed p' is
    | .fault r => .fault r
    | .refused r => .refused r

/-- No input pin asserted. -/
def PinsIn.quiet : PinsIn := { rst := false, cmd := none, wd := none, rspReady := false, rdReady := false }

/-- The edges at which the host gives these inputs one after the other, each followed by as many edges without input as
the block then computes. -/
def paced (is : List (PinsIn × Nat)) : List (PinsIn × Nat) :=
  is.flatMap fun j => j :: List.replicate j.2 (PinsIn.quiet, 0)

/-- The invariants at the pin level: those of the block, at most one response waiting and none while a LOAD waits for
beats (30_encoding.md R72), and the block computes only inside a transaction. -/
abbrev PinState.Wf (p : PinState) : Prop :=
  p.block.Wf ∧
  p.block.rsp.length ≤ 1 ∧
  (p.block.xact ≠ .idle → p.block.rsp = [] ∧ p.block.rd = []) ∧
  (p.working ≠ 0 → p.block.inTransaction = true)

end Sys2Proof.Machine
end

