-- ==== Sys2Proof/Machine/Runs.lean ====
section
/-! DEFINITION. How a run stands after a number of steps or clock edges: it has reached a fault, it has not ended, or it
has ended (00_scope.md R10, 60_exceptions.md R212, 70_reset_and_hazards.md R236). -/

namespace Sys2Proof.Machine

/-- How a run stands. -/
inductive RunStatus where
  /-- The host's list is exhausted and every transaction is finished (00_scope.md R10). -/
  | completed
  /-- The run reached FAULT = 1 with this cause: it ended there, and ended badly (60_exceptions.md R212). -/
  | faulted (cause : Cause)
  /-- The run has not ended: an event of the host's list is still to come, or a transaction is unfinished
  (70_reset_and_hazards.md R236). -/
  | unfinished
  /-- The model stopped, which no run from a state that keeps the invariants does (log 7). -/
  | stopped
  deriving DecidableEq, Repr

/-- How a run that has come to `s` stands, with no further step. -/
def State.standing (s : State) : RunStatus :=
  if s.fault then .faulted s.faultCause
  else if s.xact == .idle && s.host.isEmpty then .completed
  else .unfinished

/-- How the run of at most `k` steps from `s` stands. It ends at the first state with FAULT = 1, that a reset follows in
the host's list or not: "a run that reaches it has ended there, and it ended badly" (60_exceptions.md R212). A reset from a
state with FAULT = 0 is one event of the run and does not end it: DESIGN CHOICE (log 20), since 00_scope.md R10 speaks of
lists of commands only. -/
def State.runStatus : Nat → State → RunStatus
  | 0, s => s.standing
  | k + 1, s =>
    if s.fault then .faulted s.faultCause
    else
      match step s with
      | .next t => State.runStatus k t
      | .fault _ => .stopped
      | .refused _ => .stopped

/-- How a run at the pins that has come to `p` stands, with no further edge: "a pin-level model must count an unfinished
transaction as a run that has not ended" (70_reset_and_hazards.md R236). -/
def PinState.standing (p : PinState) : RunStatus :=
  if p.block.fault then .faulted p.block.faultCause
  else if p.block.inTransaction || p.working != 0 then .unfinished
  else .completed

/-- How the run of these clock edges from `p` stands. It ends at the first state with FAULT = 1 (60_exceptions.md R212); a
reset before that is one event of the run (log 20). -/
def PinState.runStatus : List (PinsIn × Nat) → PinState → RunStatus
  | [], p => p.standing
  | (i, pace) :: is, p =>
    if p.block.fault then .faulted p.block.faultCause
    else
      match p.edge i pace with
      | .next p' => PinState.runStatus is p'
      | .fault _ => .stopped
      | .refused _ => .stopped

end Sys2Proof.Machine
end

