-- ==== Sys2Proof/Safety.lean ====
section
/-! DEFINITION. What counts as a safe run, and the frames the statements use. -/

namespace Sys2Proof.Machine

/-- The run of at most `k` steps from `s` is safe: it has taken the host's whole list, every transaction is finished, and
no state of it has FAULT = 1, the first and the last included (60_exceptions.md R212, 70_reset_and_hazards.md R236). That
a run which faults and is then reset is not safe is R212's; that a reset with FAULT = 0 may stand inside a safe run is the
model's choice (log 20). -/
def SafeRun (k : Nat) (s : State) : Prop := s.runStatus k = .completed

/-- The run of these clock edges from `p` is safe: no transaction is unfinished at its end, and no state of it has FAULT =
1 (60_exceptions.md R212, 70_reset_and_hazards.md R236; log 20). -/
def SafePinRun (is : List (PinsIn × Nat)) (p : PinState) : Prop := p.runStatus is = .completed

/-- What is neither a queue nor the wd channel nor given to the host is in `t` as in `s`: the capacity, FAULT, FAULT_CAUSE,
the transaction, the reset counter and what the host does next. -/
abbrev SameControl (s t : State) : Prop :=
  t.capacity = s.capacity ∧ t.fault = s.fault ∧ t.faultCause = s.faultCause ∧ t.xact = s.xact ∧
  t.resets = s.resets ∧ t.host = s.host

/-- Every slot of queue `q` outside `written` reads in `t` as in `s`. -/
abbrev SlotsKept (q : QueueId) (written : Nat → Prop) (s t : State) : Prop :=
  ∀ p, ¬ written p → Memory.read (t.queue q).storage p = Memory.read (s.queue q).storage p

/-- The queues keep their `storage`, `begin` and `size` (00_scope.md R9). -/
abbrev SameQueues (s t : State) : Prop := t.q0 = s.q0 ∧ t.q1 = s.q1

/-- The command was answered by one response, and no COPY_TO beat was given (30_encoding.md R80). -/
abbrev Answered (s t : State) (status : Status) (data : Word) : Prop :=
  t.rsp = s.rsp ++ [{ status := status, data := data }] ∧ t.rd = s.rd

/-- The statuses a command may answer (60_exceptions.md R202). -/
def mayAnswer : Instr → List Status
  | .init _ => [.ok, .faulted]
  | .pushBack _ _ => [.ok, .capacityExceeded]
  | .popBack _ => [.ok, .empty]
  | .popFront _ => [.ok, .empty]
  | .get _ _ => [.ok, .faulted]
  | .find _ _ => [.ok, .notFound]
  | .removeAt _ _ => [.ok, .faulted]
  | .merge _ _ => [.ok, .wouldExceedCapacity, .faulted]
  | .copyTo _ => [.ok, .faulted]
  | .load _ _ => [.ok, .faulted]
  | .size _ => [.ok, .faulted]

end Sys2Proof.Machine
end

