-- ==== Sys2Proof/Certificates/Slice0/Obligations.lean ====
section
/-! DEFINITION. The statements for the provers, from the numbered rules of the spec. -/

open Sys2Proof Sys2Proof.Machine

/-! ### Reset and invariants -/

/-- 10_state.md R38, for every legal capacity: the reset value of every register, storage at STORAGE_INIT, and the derived
outputs. -/
def Obligations.ResetStateHoldsResetValues : Prop :=
  ∀ C : Nat, Config.LegalCapacity C →
    let s := State.resetWith C
    s.capacity = C ∧ s.q0.begin = 0 ∧ s.q1.begin = 0 ∧ s.q0.size = 0 ∧ s.q1.size = 0 ∧
    s.fault = false ∧ s.faultCause = .none ∧
    (∀ (q : QueueId) (p : Nat), p < C →
      Memory.read (s.queue q).storage p = some (Config.storageInit s.resets q.number p)) ∧
    (∀ (q : QueueId) (p : Nat), C ≤ p → Memory.read (s.queue q).storage p = none) ∧
    s.emptyPins = 0b11#2 ∧ s.fullPins = 0b00#2 ∧ s.faultPin = false ∧ s.faultCausePins = 0#4

/-- The invariants hold in the reset state of every legal capacity, and in `State.reset`, whose capacity is the model's
choice (log 1). -/
def Obligations.ResetStateKeepsInvariants : Prop :=
  (∀ C : Nat, Config.LegalCapacity C → (State.resetWith C).Wf) ∧ State.reset.Wf

/-- 10_state.md R24: every step keeps the invariants. -/
def Obligations.StepKeepsInvariants : Prop :=
  ∀ s t : State, s.Wf → step s = .next t → t.Wf

/-- 00_scope.md R10: from a state that keeps the invariants and has FAULT = 0 every command word has an outcome and there
is a step; from a state with FAULT = 1 there is none, until a reset. -/
def Obligations.StepIsTotalWhileRunning : Prop :=
  ∀ s : State, s.Wf →
    (s.fault = false → (∀ w : CommandWord, ∃ t, s.accept w = .next t) ∧ ∃ t, step s = .next t) ∧
    (s.fault = true → (∀ rest, s.host ≠ .reset :: rest) → ∀ t, step s ≠ .next t)

/-- 00_scope.md R7: no step changes the capacity, and a capacity of 0 is not legal. -/
def Obligations.CapacityNeverChanges : Prop :=
  (∀ s t : State, step s = .next t → t.capacity = s.capacity) ∧ ¬ Config.LegalCapacity 0

/-- 00_scope.md R6: the naturals the model holds fit the registers: AW bits for `begin`, SW bits for `size`, and 32 bits
for a `size` in a DATA field. -/
def Obligations.RegistersFitTheirWidths : Prop :=
  ∀ (s : State) (q : QueueId), s.Wf →
    (s.queue q).begin < 2 ^ Config.beginWidth s.capacity ∧
    (s.queue q).size < 2 ^ Config.sizeWidth s.capacity ∧
    (BitVec.ofNat 32 (s.queue q).size).toNat = (s.queue q).size

/-! ### Encoding -/

/-- Decoding the encoding of any instruction gives it back. -/
def Obligations.DecodeInvertsEncode : Prop :=
  ∀ i : Instr, i.wf = true → decode (encode i) = some i

/-- A legal word is the encoding of the instruction it decodes to: no bit of it is dropped. -/
def Obligations.EncodeInvertsDecode : Prop :=
  ∀ (w : CommandWord) (i : Instr), decode w = some i → encode i = w

/-- 30_encoding.md R75, R76: the word of each command as a number: OP at bit 36, Q at bit 35, Q2 at bit 34, RSV 0, ARG at
bit 0, and 0 in every field a command does not use. -/
def Obligations.EncodingPlacesTheFields : Prop :=
  ∀ (q r : QueueId) (x : Word),
    (encode (.init q)).toNat = 0x1 * 2 ^ 36 + q.number * 2 ^ 35 ∧
    (encode (.pushBack q x)).toNat = 0x2 * 2 ^ 36 + q.number * 2 ^ 35 + x.toNat ∧
    (encode (.popBack q)).toNat = 0x3 * 2 ^ 36 + q.number * 2 ^ 35 ∧
    (encode (.popFront q)).toNat = 0x4 * 2 ^ 36 + q.number * 2 ^ 35 ∧
    (encode (.get q x)).toNat = 0x5 * 2 ^ 36 + q.number * 2 ^ 35 + x.toNat ∧
    (encode (.find q x)).toNat = 0x6 * 2 ^ 36 + q.number * 2 ^ 35 + x.toNat ∧
    (encode (.removeAt q x)).toNat = 0x7 * 2 ^ 36 + q.number * 2 ^ 35 + x.toNat ∧
    (encode (.merge q r)).toNat = 0x8 * 2 ^ 36 + q.number * 2 ^ 35 + r.number * 2 ^ 34 ∧
    (encode (.copyTo q)).toNat = 0x9 * 2 ^ 36 + q.number * 2 ^ 35 ∧
    (encode (.load q x)).toNat = 0xA * 2 ^ 36 + q.number * 2 ^ 35 + x.toNat ∧
    (encode (.size q)).toNat = 0xB * 2 ^ 36 + q.number * 2 ^ 35

/-- 30_encoding.md R77: at most one row takes a word, the decoder refuses exactly the words no row takes, and the row of the
decoded instruction takes the word. -/
def Obligations.OpcodeRowsDecideDecoding : Prop :=
  ∀ w : CommandWord,
    (∀ r ∈ opcodeTable, ∀ r' ∈ opcodeTable, r.accepts w = true → r'.accepts w = true → r = r') ∧
    (decode w = none ↔ ∀ r ∈ opcodeTable, r.accepts w = false) ∧
    (∀ i, decode w = some i → i.row ∈ opcodeTable ∧ i.row.accepts w = true)

/-- 30_encoding.md R82: the illegal words, by their fields; and what an illegal word does when it is accepted. -/
def Obligations.IllegalWordsAreRefusedAndFault : Prop :=
  (∀ w : CommandWord,
    let op := (w.extractLsb' 36 4).toNat
    decode w = none ↔
      (op = 0 ∨ 12 ≤ op) ∨ w.extractLsb' 32 2 ≠ 0#2 ∨ (w.getLsbD 34 = true ∧ op ≠ 8) ∨
      (w.extractLsb' 0 32 ≠ 0#32 ∧ (op = 1 ∨ op = 3 ∨ op = 4 ∨ op = 8 ∨ op = 9 ∨ op = 11))) ∧
  decode 0#40 = none ∧ decode (BitVec.allOnes 40) = none ∧
  (∀ (w : CommandWord) (s : State), decode w = none →
    ∃ t, s.accept w = .next t ∧ SameQueues s t ∧ t.fault = true ∧ t.faultCause = .illegalCommand ∧
      Answered s t .faulted 1#32)

/-- 30_encoding.md R86: the worked encodings and the worked illegal words. -/
def Obligations.WorkedEncodingsDecode : Prop :=
  decode 0x1000000000#40 = some (.init .q0) ∧
  decode 0x1800000000#40 = some (.init .q1) ∧
  decode 0x200000000F#40 = some (.pushBack .q0 15#32) ∧
  decode 0x28FFFFFFFF#40 = some (.pushBack .q1 0xFFFFFFFF#32) ∧
  decode 0x3000000000#40 = some (.popBack .q0) ∧
  decode 0x4800000000#40 = some (.popFront .q1) ∧
  decode 0x5000000002#40 = some (.get .q0 2#32) ∧
  decode 0x6000000003#40 = some (.find .q0 3#32) ∧
  decode 0x7800000001#40 = some (.removeAt .q1 1#32) ∧
  decode 0x8400000000#40 = some (.merge .q0 .q1) ∧
  decode 0x8800000000#40 = some (.merge .q1 .q0) ∧
  decode 0x8000000000#40 = some (.merge .q0 .q0) ∧
  decode 0x8C00000000#40 = some (.merge .q1 .q1) ∧
  decode 0x9000000000#40 = some (.copyTo .q0) ∧
  decode 0xA000000002#40 = some (.load .q0 2#32) ∧
  decode 0xB800000000#40 = some (.size .q1) ∧
  decode 0x0000000000#40 = none ∧
  decode 0x3000000001#40 = none ∧
  decode 0x2400000005#40 = none ∧
  decode 0x5100000000#40 = none ∧
  decode 0xC000000000#40 = none

/-- 30_encoding.md R80 and 60_exceptions.md R200: the fields of a response word, and the status codes. -/
def Obligations.ResponseWordFields : Prop :=
  (∀ r : Response, r.word.extractLsb' 32 4 = r.status.code ∧ r.word.extractLsb' 0 32 = r.data) ∧
  Status.ok.code = 0x0#4 ∧ Status.capacityExceeded.code = 0x1#4 ∧ Status.empty.code = 0x2#4 ∧
  Status.notFound.code = 0x3#4 ∧ Status.wouldExceedCapacity.code = 0x4#4 ∧ Status.faulted.code = 0xF#4

/-! ### The step, faults, halt and reset -/

/-- A step runs the command the host presents: while FAULT = 0 and no LOAD waits, the word is taken from the host and its
instruction executed (60_exceptions.md R214), if its operands are at hand, as they are for every instruction but a LOAD of
legal length whose beats are not all there; that one is not presented yet, and the block idles (40_construct.md R106, log
6). -/
def Obligations.StepRunsDecodedCommand : Prop :=
  ∀ (s : State) (w : CommandWord) (rest : List HostEvent) (i : Instr),
    s.fault = false → s.xact = .idle → s.host = .command w :: rest → decode w = some i →
    (s.hasOperands i = true → step s = exec i { s with host := rest }) ∧
    (s.hasOperands i = false → step s = .next s) ∧
    (s.hasOperands i = false ↔
      ∃ q length, i = .load q length ∧ length.toNat ≤ s.capacity ∧ s.wd.length < length.toNat)

/-- 60_exceptions.md R223: with nothing offered the block idles and keeps all state. -/
def Obligations.StepIdlesWithoutCommand : Prop :=
  ∀ s : State, s.fault = false → s.xact = .idle → s.host = [] → step s = .next s

/-- 60_exceptions.md R206: an illegal word that the host offers is taken, faults with cause 1, and nothing of it is
recorded. -/
def Obligations.IllegalCommandFaults : Prop :=
  ∀ (s : State) (w : CommandWord) (rest : List HostEvent),
    s.fault = false → s.xact = .idle → s.host = .command w :: rest → decode w = none →
    ∃ t, step s = .next t ∧ t.fault = true ∧ t.faultCause = .illegalCommand ∧ t.faultCause.code = 1#4 ∧
      SameQueues s t ∧ Answered s t .faulted 1#32 ∧ t.host = rest ∧
      t.capacity = s.capacity ∧ t.xact = .idle ∧ t.resets = s.resets ∧ t.wd = s.wd

/-- 60_exceptions.md R210: what fault entry does, exactly. -/
def Obligations.FaultEntryIsExact : Prop :=
  ∀ (s : State) (c : Cause),
    (s.raise c).fault = true ∧ (s.raise c).faultCause = c ∧ SameQueues s (s.raise c) ∧
    Answered s (s.raise c) .faulted (c.code.zeroExtend 32) ∧
    (s.raise c).capacity = s.capacity ∧ (s.raise c).xact = s.xact ∧ (s.raise c).resets = s.resets ∧
    (s.raise c).host = s.host ∧ (s.raise c).wd = s.wd

/-- 60_exceptions.md R212: while FAULT = 1 there is no step but a reset; at the pins `cmd_ready` is 0, `fault_o` and
`fault_cause_o` stay, and no edge without reset changes a queue, FAULT or FAULT_CAUSE. -/
def Obligations.HaltedBlockDoesNothing : Prop :=
  (∀ s : State, s.fault = true → (∀ rest, s.host ≠ .reset :: rest) → step s = .fault (.halted s.faultCause)) ∧
  (∀ (p : PinState) (i : PinsIn) (pace : Nat), p.Wf → p.block.fault = true → i.rst = false →
    (p.pins false).cmdReady = false ∧ (p.pins false).faultO = true ∧
    (p.pins false).faultCauseO = p.block.faultCause.code ∧
    ∃ p', p.edge i pace = .next p' ∧ SameQueues p.block p'.block ∧ p'.block.fault = true ∧
      p'.block.faultCause = p.block.faultCause)

/-- 60_exceptions.md R213: the only step out of the halted condition is a reset, which empties both queues; until then
FAULT_CAUSE keeps the first cause. -/
def Obligations.OnlyResetLeavesTheFault : Prop :=
  (∀ s t : State, s.fault = true → step s = .next t →
    (∃ rest, s.host = .reset :: rest ∧ t.host = rest) ∧ t.fault = false ∧ t.faultCause = .none ∧
    t.q0.size = 0 ∧ t.q1.size = 0) ∧
  (∀ (p p' : PinState) (i : PinsIn) (pace : Nat), p.Wf → p.block.fault = true → i.rst = false →
    p.edge i pace = .next p' → p'.block.fault = true ∧ p'.block.faultCause = p.block.faultCause)

/-- 70_reset_and_hazards.md R230, R232: a reset that the host applies sets every register to its reset value, from any
state; storage is the free values of the next reset (log 2), and what the block has given stays given (log 13). At the pins
a rising edge with `rst` = 1 does so from every state that keeps the invariants, and drops the transaction, its response
and its beats. -/
def Obligations.ResetTakesTheResetState : Prop :=
  (∀ (s : State) (rest : List HostEvent), s.host = .reset :: rest →
    ∃ t, step s = .next t ∧ t.q0.begin = 0 ∧ t.q1.begin = 0 ∧ t.q0.size = 0 ∧ t.q1.size = 0 ∧
      t.fault = false ∧ t.faultCause = .none ∧ t.xact = .idle ∧ t.host = rest ∧
      t.capacity = s.capacity ∧ t.wd = s.wd ∧ t.rsp = s.rsp ∧ t.rd = s.rd ∧
      (∀ (q : QueueId) (p : Nat), p < s.capacity →
        Memory.read (t.queue q).storage p = some (Config.storageInit (s.resets + 1) q.number p))) ∧
  (∀ (p : PinState) (i : PinsIn) (pace : Nat), p.Wf → i.rst = true →
    ∃ p', p.edge i pace = .next p' ∧ p'.block.q0.begin = 0 ∧ p'.block.q1.begin = 0 ∧ p'.block.q0.size = 0 ∧
      p'.block.q1.size = 0 ∧ p'.block.fault = false ∧ p'.block.faultCause = .none ∧ p'.block.xact = .idle ∧
      p'.block.rsp = [] ∧ p'.block.rd = [] ∧ p'.working = 0 ∧ p'.block.capacity = p.block.capacity ∧
      (p'.pins false).cmdReady = true ∧ (p'.pins false).wdReady = false ∧ (p'.pins false).rsp = none ∧
      (p'.pins false).rd = none ∧ (p'.pins false).emptyO = 0b11#2 ∧ (p'.pins false).fullO = 0b00#2 ∧
      (p'.pins false).faultO = false ∧ (p'.pins false).faultCauseO = 0#4 ∧
      (∀ (q : QueueId) (k : Nat), k < p.block.capacity →
        Memory.read (p'.block.queue q).storage k = some (Config.storageInit (p.block.resets + 1) q.number k)))

/-! ### What the commands do -/

/-- 40_construct.md R100, R101: INIT empties its queue and writes no slot. -/
def Obligations.InitEmptiesQueue : Prop :=
  ∀ (q : QueueId) (s : State), s.Wf →
    ∃ t, exec (.init q) s = .next t ∧ (t.queue q).begin = 0 ∧ (t.queue q).size = 0 ∧
      SlotsKept q (fun _ => False) s t ∧ t.seq q = some [] ∧
      (t.queue q).isEmpty = true ∧ (t.queue q).isFull t.capacity = false ∧
      t.queue q.other = s.queue q.other ∧ SameControl s t ∧ t.wd = s.wd ∧ Answered s t .ok 0#32

/-- 40_construct.md R107, and the OK path of R104: LOAD with its beats delivered replaces the queue's contents, at slots 0 to n - 1; the other
slots keep their values; exactly n beats are taken. -/
def Obligations.LoadReplacesContents : Prop :=
  ∀ (q : QueueId) (length : Word) (s : State), s.Wf → s.xact = .idle →
    length.toNat ≤ s.capacity → length.toNat ≤ s.wd.length →
    ∃ t, exec (.load q length) s = .next t ∧ (t.queue q).begin = 0 ∧ (t.queue q).size = length.toNat ∧
      (∀ k, k < length.toNat → Memory.read (t.queue q).storage k = s.wd[k]?) ∧
      SlotsKept q (fun p => p < length.toNat) s t ∧ t.seq q = some (s.wd.take length.toNat) ∧
      (t.queue q).isEmpty = (length.toNat == 0) ∧ (t.queue q).isFull t.capacity = (length.toNat == s.capacity) ∧
      t.queue q.other = s.queue q.other ∧ SameControl s t ∧ t.wd = s.wd.drop length.toNat ∧ Answered s t .ok 0#32

/-- 40_construct.md R105, 60_exceptions.md R209: a length over the capacity faults, and takes no beat. -/
def Obligations.LoadTooLongFaults : Prop :=
  ∀ (q : QueueId) (length : Word) (s : State), s.capacity < length.toNat →
    ∃ t, exec (.load q length) s = .next t ∧ t.fault = true ∧ t.faultCause = .loadLength ∧
      t.faultCause.code = 4#4 ∧ SameQueues s t ∧ Answered s t .faulted 4#32 ∧ t.wd = s.wd ∧
      t.capacity = s.capacity ∧ t.xact = s.xact ∧ t.resets = s.resets ∧ t.host = s.host

/-- A LOAD that is accepted at the pins before its beats have all come waits: it has taken those that have, changed no
queue, given no response; while it waits no command is accepted (40_construct.md R106, 70_reset_and_hazards.md R236; the
form of the wait is log 6). The transaction level has no such wait: no step enters it. -/
def Obligations.LoadWaitsForItsBeats : Prop :=
  (∀ (q : QueueId) (length : Word) (s : State), length.toNat ≤ s.capacity → s.wd.length < length.toNat →
    exec (.load q length) s = .next { s with xact := .loading q length.toNat s.wd, wd := [] }) ∧
  (∀ (s : State) (q : QueueId) (n : Nat) (taken : List Word), s.Wf → s.xact = .loading q n taken →
    (∀ rest, s.host ≠ .reset :: rest) → s.wd = [] → step s = .next s) ∧
  (∀ s t : State, s.xact = .idle → step s = .next t → t.xact = .idle)

/-- A LOAD whose beats come in two pieces ends as one whose beats come at once (40_construct.md R106). That `exec` of a LOAD
without all its beats answers a waiting next state, and that `step` goes on from it, is the model's choice, its form of the
wait (log 6): R106 gives a transaction-level model no such wait. -/
def Obligations.LoadInPiecesIsLoadAtOnce : Prop :=
  ∀ (q : QueueId) (length : Word) (s : State) (V₁ V₂ : List Word),
    s.fault = false → (∀ rest, s.host ≠ .reset :: rest) → length.toNat ≤ s.capacity → V₁.length < length.toNat →
    ∃ t, exec (.load q length) { s with wd := V₁ } = .next t ∧ t.wd = [] ∧
      step { t with wd := V₂ } = exec (.load q length) { s with wd := V₁ ++ V₂ }

/-- 41_push_pop.md R120, R121, R122: PUSH_BACK on a full queue answers CAPACITY_EXCEEDED and changes nothing; otherwise it
writes the slot one below the back, which becomes the back. -/
def Obligations.PushBackInsertsAtTheBack : Prop :=
  ∀ (q : QueueId) (v : Word) (s : State), s.Wf →
    ∃ t, exec (.pushBack q v) s = .next t ∧ t.queue q.other = s.queue q.other ∧ SameControl s t ∧ t.wd = s.wd ∧
      if (s.queue q).size = s.capacity then t.queue q = s.queue q ∧ Answered s t .capacityExceeded 0#32
      else
        let b := if (s.queue q).begin = 0 then s.capacity - 1 else (s.queue q).begin - 1
        (t.queue q).begin = b ∧ (t.queue q).size = (s.queue q).size + 1 ∧
        Memory.read (t.queue q).storage b = some v ∧ SlotsKept q (fun p => p = b) s t ∧
        (t.queue q).isEmpty = false ∧ (t.queue q).isFull t.capacity = ((s.queue q).size + 1 == s.capacity) ∧
        Answered s t .ok 0#32 ∧ ∀ A, s.seq q = some A → t.seq q = some (v :: A)

/-- 41_push_pop.md R124, R125: POP_BACK on an empty queue answers EMPTY and changes nothing; otherwise it answers the
element at the back, steps `begin` up, and writes no slot. -/
def Obligations.PopBackTakesTheBack : Prop :=
  ∀ (q : QueueId) (s : State), s.Wf →
    ∃ t, exec (.popBack q) s = .next t ∧ t.queue q.other = s.queue q.other ∧ SameControl s t ∧ t.wd = s.wd ∧
      SlotsKept q (fun _ => False) s t ∧
      if (s.queue q).size = 0 then t.queue q = s.queue q ∧ Answered s t .empty 0#32
      else
        (t.queue q).begin = (if (s.queue q).begin = s.capacity - 1 then 0 else (s.queue q).begin + 1) ∧
        (t.queue q).size = (s.queue q).size - 1 ∧
        (t.queue q).isFull t.capacity = false ∧ (t.queue q).isEmpty = ((s.queue q).size == 1) ∧
        ∃ v, Memory.read (s.queue q).storage (s.queue q).begin = some v ∧ Answered s t .ok v ∧
          ∀ A, s.seq q = some A → ∃ B, A = v :: B ∧ t.seq q = some B

/-- 41_push_pop.md R128, R129: POP_FRONT on an empty queue answers EMPTY and changes nothing; otherwise it answers the
element at the front, keeps `begin`, and writes no slot. -/
def Obligations.PopFrontTakesTheFront : Prop :=
  ∀ (q : QueueId) (s : State), s.Wf →
    ∃ t, exec (.popFront q) s = .next t ∧ t.queue q.other = s.queue q.other ∧ SameControl s t ∧ t.wd = s.wd ∧
      SlotsKept q (fun _ => False) s t ∧
      if (s.queue q).size = 0 then t.queue q = s.queue q ∧ Answered s t .empty 0#32
      else
        (t.queue q).begin = (s.queue q).begin ∧ (t.queue q).size = (s.queue q).size - 1 ∧
        (t.queue q).isFull t.capacity = false ∧ (t.queue q).isEmpty = ((s.queue q).size == 1) ∧
        ∃ v, Memory.read (s.queue q).storage (((s.queue q).begin + (s.queue q).size - 1) % s.capacity) = some v ∧
          Answered s t .ok v ∧ ∀ A, s.seq q = some A → ∃ B, A = B ++ [v] ∧ t.seq q = some B

/-- 41_push_pop.md R126: the round trip of PUSH_BACK and POP_BACK, with the one stale slot that now holds the value. -/
def Obligations.PushBackThenPopBackRoundTrip : Prop :=
  ∀ (q : QueueId) (v : Word) (s : State), s.Wf → (s.queue q).size < s.capacity →
    ∃ t u, exec (.pushBack q v) s = .next t ∧ Answered s t .ok 0#32 ∧
      exec (.popBack q) t = .next u ∧ Answered t u .ok v ∧
      (u.queue q).begin = (s.queue q).begin ∧ (u.queue q).size = (s.queue q).size ∧ u.seq q = s.seq q ∧
      Memory.read (u.queue q).storage (((s.queue q).begin + s.capacity - 1) % s.capacity) = some v ∧
      SlotsKept q (fun p => p = ((s.queue q).begin + s.capacity - 1) % s.capacity) s u ∧
      u.queue q.other = s.queue q.other ∧ SameControl s u ∧ u.wd = s.wd

/-- 41_push_pop.md R131: after a PUSH_BACK, POP_BACK answers the newest element and POP_FRONT the oldest. -/
def Obligations.NewestAtBackOldestAtFront : Prop :=
  ∀ (q : QueueId) (v : Word) (s : State) (A : List Word), s.Wf → s.seq q = some A → A.length < s.capacity →
    ∃ t u w, exec (.pushBack q v) s = .next t ∧
      exec (.popBack q) t = .next u ∧ Answered t u .ok v ∧
      exec (.popFront q) t = .next w ∧ Answered t w .ok ((v :: A).getLast (List.cons_ne_nil v A))

/-- 42_indexed.md R140, R141, 60_exceptions.md R207: GET answers the element at the index and changes nothing; an index not below `size`, over all 32
bits of ARG, faults with cause 2 and the response (FAULTED, 2). -/
def Obligations.GetAnswersTheElement : Prop :=
  ∀ (q : QueueId) (index : Word) (s : State) (A : List Word), s.Wf → s.seq q = some A →
    if index.toNat < (s.queue q).size then
      ∃ v, Memory.read (s.queue q).storage (((s.queue q).begin + index.toNat) % s.capacity) = some v ∧
        A[index.toNat]? = some v ∧ exec (.get q index) s = .next (s.respond .ok v)
    else ∃ t, exec (.get q index) s = .next t ∧ t = s.raise .indexOutOfRange ∧ t.fault = true ∧
      t.faultCause = .indexOutOfRange ∧ t.faultCause.code = 2#4 ∧ SameQueues s t ∧ Answered s t .faulted 2#32

/-- 42_indexed.md R144, R145: FIND answers the least index that holds the value, or NOT_FOUND, and changes nothing. -/
def Obligations.FindAnswersTheLeastIndex : Prop :=
  ∀ (q : QueueId) (v : Word) (s : State) (A : List Word), s.Wf → s.seq q = some A →
    (∃ k : Nat, k < (s.queue q).size ∧ A[k]? = some v ∧ (∀ j : Nat, j < k → A[j]? ≠ some v) ∧
      exec (.find q v) s = .next (s.respond .ok (BitVec.ofNat 32 k)) ∧ (BitVec.ofNat 32 k).toNat = k) ∨
    ((∀ j : Nat, A[j]? ≠ some v) ∧ exec (.find q v) s = .next (s.respond .notFound 0#32))

/-- 42_indexed.md R148, R149, R150: REMOVE_AT moves every later element one index down, keeps `begin`, writes only the slots of
indices `index` to `size - 2`; an index not below `size` faults with cause 2 and the response (FAULTED, 2)
(60_exceptions.md R207). -/
def Obligations.RemoveAtClosesTheGap : Prop :=
  ∀ (q : QueueId) (index : Word) (s : State), s.Wf →
    if index.toNat < (s.queue q).size then
      ∃ t, exec (.removeAt q index) s = .next t ∧
        (t.queue q).begin = (s.queue q).begin ∧ (t.queue q).size = (s.queue q).size - 1 ∧
        (∀ k, index.toNat ≤ k → k + 1 < (s.queue q).size →
          (t.queue q).elem s.capacity k = (s.queue q).elem s.capacity (k + 1)) ∧
        SlotsKept q (fun p => ∃ k, index.toNat ≤ k ∧ k + 1 < (s.queue q).size ∧
          p = ((s.queue q).begin + k) % s.capacity) s t ∧
        (t.queue q).isFull t.capacity = false ∧ (t.queue q).isEmpty = ((s.queue q).size == 1) ∧
        (∀ A, s.seq q = some A → t.seq q = some (A.eraseIdx index.toNat)) ∧
        t.queue q.other = s.queue q.other ∧ SameControl s t ∧ t.wd = s.wd ∧ Answered s t .ok 0#32
    else ∃ t, exec (.removeAt q index) s = .next t ∧ t = s.raise .indexOutOfRange ∧ t.fault = true ∧
      t.faultCause = .indexOutOfRange ∧ t.faultCause.code = 2#4 ∧ SameQueues s t ∧ Answered s t .faulted 2#32

/-- 43_merge.md R163, R165, R166, and the OK path of R160: MERGE within capacity writes the zipper of the two sequences, as they were before, to
the destination's slots 0 to m + n - 1, keeps its other slots, and empties the source without touching its `begin` or its
slots. -/
def Obligations.MergeInterleavesTheQueues : Prop :=
  ∀ (d src : QueueId) (s : State) (A B : List Word), s.Wf → d ≠ src → s.seq d = some A → s.seq src = some B →
    A.length + B.length ≤ s.capacity →
    ∃ t, exec (.merge d src) s = .next t ∧
      (t.queue d).begin = 0 ∧ (t.queue d).size = A.length + B.length ∧
      (∀ k, k < A.length + B.length → Memory.read (t.queue d).storage k = (zipper A B)[k]?) ∧
      SlotsKept d (fun p => p < A.length + B.length) s t ∧
      (t.queue src).begin = (s.queue src).begin ∧ (t.queue src).storage = (s.queue src).storage ∧
      (t.queue src).size = 0 ∧ t.seq d = some (zipper A B) ∧ t.seq src = some [] ∧
      (t.queue src).isEmpty = true ∧ (t.queue src).isFull t.capacity = false ∧
      (t.queue d).isEmpty = (A.length + B.length == 0) ∧
      (t.queue d).isFull t.capacity = (A.length + B.length == s.capacity) ∧
      SameControl s t ∧ t.wd = s.wd ∧ Answered s t .ok 0#32

/-- 43_merge.md R161, 60_exceptions.md R208: a queue merged with itself faults with cause 3, whatever its size. -/
def Obligations.MergeWithItselfFaults : Prop :=
  ∀ (d : QueueId) (s : State),
    ∃ t, exec (.merge d d) s = .next t ∧ t.fault = true ∧ t.faultCause = .mergeAlias ∧ t.faultCause.code = 3#4 ∧
      SameQueues s t ∧ Answered s t .faulted 3#32 ∧ t.capacity = s.capacity ∧ t.xact = s.xact ∧
      t.resets = s.resets ∧ t.host = s.host ∧ t.wd = s.wd

/-- 43_merge.md R162: a merge over capacity answers WOULD_EXCEED_CAPACITY, and both queues and everything else are exactly as
they were. -/
def Obligations.MergeOverCapacityIsAStatus : Prop :=
  ∀ (d src : QueueId) (s : State), d ≠ src → s.capacity < (s.queue d).size + (s.queue src).size →
    exec (.merge d src) s = .next (s.respond .wouldExceedCapacity 0#32)

/-- 43_merge.md R164: the zipper in closed form. -/
def Obligations.ZipperClosedForm : Prop :=
  ∀ (A B : List Word),
    (zipper A B).length = A.length + B.length ∧
    ∀ k, k < A.length + B.length →
      (zipper A B)[k]? =
        if k < 2 * min A.length B.length then (if k % 2 = 0 then A[k / 2]? else B[(k - 1) / 2]?)
        else if B.length < A.length then A[k - B.length]?
        else B[k - A.length]?

/-- 43_merge.md R169: the zipper holds every element of both lists exactly once and keeps the order of each. -/
def Obligations.ZipperKeepsElementsAndOrder : Prop :=
  ∀ (A B : List Word), (zipper A B).Perm (A ++ B) ∧ A.Sublist (zipper A B) ∧ B.Sublist (zipper A B)

/-- 44_inspect.md R180: COPY_TO answers `size`, gives the sequence on the rd channel, and changes nothing else. -/
def Obligations.CopyToGivesTheSequence : Prop :=
  ∀ (q : QueueId) (s : State) (A : List Word), s.Wf → s.seq q = some A →
    A.length = (s.queue q).size ∧
    exec (.copyTo q) s = .next { s.respond .ok (BitVec.ofNat 32 (s.queue q).size) with rd := s.rd ++ A }

/-- 42_indexed.md R142: the values of GET at 0 to `size - 1` are, in order, the beats of COPY_TO. -/
def Obligations.GetsReproduceCopyTo : Prop :=
  ∀ (q : QueueId) (s : State), s.Wf →
    ∃ t A, exec (.copyTo q) s = .next t ∧ t.rd = s.rd ++ A ∧ A.length = (s.queue q).size ∧
      ∀ (k : Nat) (h : k < A.length), exec (.get q (BitVec.ofNat 32 k)) s = .next (s.respond .ok A[k])

/-- 44_inspect.md R184: SIZE answers the number of elements and changes nothing. -/
def Obligations.SizeAnswersTheSize : Prop :=
  ∀ (q : QueueId) (s : State), s.Wf →
    ∃ n : Word, n.toNat = (s.queue q).size ∧ exec (.size q) s = .next (s.respond .ok n)

/-! ### Rules about all commands -/

/-- The statuses each command can answer (60_exceptions.md R202). The one command that gives no response yet is a LOAD
that waits for its beats: that exception is the model's form of the wait (log 6), not R202's. -/
def Obligations.StatusesByCommand : Prop :=
  ∀ (i : Instr) (s t : State), exec i s = .next t →
    (∃ r, t.rsp = s.rsp ++ [r] ∧ r.status ∈ mayAnswer i) ∨
    (t.rsp = s.rsp ∧ ∃ q length, i = .load q length ∧ t.xact = .loading q length.toNat s.wd)

/-- 00_scope.md R9, 60_exceptions.md R201: a command answered by anything but OK has changed nothing but FAULT and FAULT_CAUSE,
and those only when it is FAULTED. -/
def Obligations.NonOkAnswersChangeNothing : Prop :=
  ∀ (i : Instr) (s t : State) (r : Response), exec i s = .next t → t.rsp = s.rsp ++ [r] → r.status ≠ .ok →
    (r.status = .faulted ∧ ∃ c, c ≠ .none ∧ t = s.raise c) ∨ (r.status ≠ .faulted ∧ t = s.respond r.status 0#32)

/-- 20_memory.md R63: a command other than MERGE leaves the queue it does not name untouched; MERGE writes of its source
only `size`. -/
def Obligations.OtherQueueIsUntouched : Prop :=
  ∀ (i : Instr) (s t : State), exec i s = .next t →
    match i with
    | .merge d src => d ≠ src →
        (t.queue src).storage = (s.queue src).storage ∧ (t.queue src).begin = (s.queue src).begin
    | i => t.queue i.queueField.other = s.queue i.queueField.other

/-- 20_memory.md R57: GET, FIND, COPY_TO and SIZE change no queue, and after an OK or NOT_FOUND nothing but what was given to
the host; the pops change no slot. -/
def Obligations.ReadsHaveNoSideEffects : Prop :=
  ∀ (q : QueueId) (x : Word) (i : Instr) (s t : State), exec i s = .next t →
    ((i = .get q x ∨ i = .find q x ∨ i = .copyTo q ∨ i = .size q) → SameQueues s t ∧ t.wd = s.wd ∧
      t.capacity = s.capacity ∧ t.xact = s.xact ∧ t.resets = s.resets ∧ t.host = s.host ∧
      ((t.fault = s.fault ∧ t.faultCause = s.faultCause) ∨ (i = .get q x ∧ (s.queue q).size ≤ x.toNat))) ∧
    ((i = .popBack q ∨ i = .popFront q) → t.q0.storage = s.q0.storage ∧ t.q1.storage = s.q1.storage)

/-- 10_state.md R29: END_PTR is constant under PUSH_BACK and POP_BACK and steps down by one, modulo C, under POP_FRONT and
REMOVE_AT. -/
def Obligations.EndPointerMoves : Prop :=
  ∀ (q : QueueId) (x : Word) (s t : State), s.Wf →
    ((exec (.pushBack q x) s = .next t ∨ exec (.popBack q) s = .next t) →
      (t.queue q).endPtr s.capacity = (s.queue q).endPtr s.capacity) ∧
    ((exec (.popFront q) s = .next t ∨ exec (.removeAt q x) s = .next t) → t.queue q ≠ s.queue q →
      (t.queue q).endPtr s.capacity =
        if (s.queue q).endPtr s.capacity = 0 then s.capacity - 1 else (s.queue q).endPtr s.capacity - 1)

/-- 20_memory.md R58: the three forms of index arithmetic, each with the range of its intermediate. -/
def Obligations.IndexArithmeticForms : Prop :=
  (∀ C b : Nat, 1 ≤ C → b < C →
    (stepDown C b = if b = 0 then C - 1 else b - 1) ∧ C - 1 ≤ b + C - 1 ∧ b + C - 1 ≤ 2 * C - 2 ∧
    (stepUp C b = if b = C - 1 then 0 else b + 1) ∧ 1 ≤ b + 1 ∧ b + 1 ≤ C) ∧
  (∀ (C i : Nat) (Q : Queue), Q.begin < C → i < C →
    (Q.phys C i = if C ≤ Q.begin + i then Q.begin + i - C else Q.begin + i) ∧ Q.begin + i ≤ 2 * C - 2) ∧
  stepDown 1 0 = 0 ∧ stepUp 1 0 = 0

/-- 10_state.md R34: the status pins are functions of `size`, and a queue is never both empty and full. -/
def Obligations.StatusPinsFollowSize : Prop :=
  ∀ s : State, s.Wf →
    (∀ q : QueueId, s.emptyPins.getLsbD q.number = decide ((s.queue q).size = 0) ∧
      s.fullPins.getLsbD q.number = decide ((s.queue q).size = s.capacity)) ∧
    s.emptyPins &&& s.fullPins = 0#2

/-! ### The abstract machine -/

/-- 10_state.md R39: every command does to the two logical sequences, and shows to the host, what the list laws say. -/
def Obligations.ExecRefinesListMachine : Prop :=
  ∀ (i : Instr) (s : State) (A B : List Word), s.Wf → s.seq .q0 = some A → s.seq .q1 = some B →
    (∀ q length, i = .load q length → length.toNat ≤ s.capacity → length.toNat ≤ s.wd.length) →
    ∃ t, exec i s = .next t ∧
      let out := listStep s.capacity s.wd i { q0 := A, q1 := B }
      t.seq .q0 = some out.1.q0 ∧ t.seq .q1 = some out.1.q1 ∧
      t.rsp = s.rsp ++ [out.2.response] ∧ t.rd = s.rd ++ out.2.stream ∧
      match out.2.cause with
      | none => t.fault = s.fault ∧ t.faultCause = s.faultCause
      | some c => t.fault = true ∧ t.faultCause = c

/-- 10_state.md R31, R39: what a command shows, and the sequences it leaves, do not depend on `begin`, on stale slots or on
STORAGE_INIT: two states with the same sequences cannot be told apart, by one command or, since the conclusion gives back
the hypotheses while FAULT stays 0 and no LOAD waits, by any number. -/
def Obligations.PhysicalLayoutIsInvisible : Prop :=
  ∀ (i : Instr) (s₁ s₂ : State), s₁.Wf → s₂.Wf → s₁.capacity = s₂.capacity → s₁.wd = s₂.wd →
    s₁.fault = s₂.fault → s₁.faultCause = s₂.faultCause → s₁.rsp = s₂.rsp → s₁.rd = s₂.rd →
    s₁.seq .q0 = s₂.seq .q0 → s₁.seq .q1 = s₂.seq .q1 →
    ∃ t₁ t₂, exec i s₁ = .next t₁ ∧ exec i s₂ = .next t₂ ∧ t₁.rsp = t₂.rsp ∧ t₁.rd = t₂.rd ∧
      t₁.fault = t₂.fault ∧ t₁.faultCause = t₂.faultCause ∧ t₁.seq .q0 = t₂.seq .q0 ∧ t₁.seq .q1 = t₂.seq .q1 ∧
      t₁.capacity = t₂.capacity ∧ t₁.wd = t₂.wd ∧ (s₁.xact = s₂.xact → t₁.xact = t₂.xact) ∧
      (s₁.fault = false → s₁.xact = .idle → s₂.xact = .idle → t₁.Wf ∧ t₂.Wf)

/-! ### The pin level -/

/-- Every rising edge keeps the invariants of the pin level. -/
def Obligations.EdgeKeepsInvariants : Prop :=
  ∀ (p p' : PinState) (i : PinsIn) (pace : Nat), p.Wf → p.edge i pace = .next p' → p'.Wf

/-- 30_encoding.md R72, R73, R74, 70_reset_and_hazards.md R232: at most one of the four channels is open at a time, `cmd_ready`
only with FAULT 0 and no transaction, and none while `rst` is 1. -/
def Obligations.OneChannelAtATime : Prop :=
  ∀ (p : PinState), p.Wf →
    ((p.pins true).cmdReady = false ∧ (p.pins true).wdReady = false ∧ (p.pins true).rsp = none ∧
      (p.pins true).rd = none) ∧
    ((p.pins false).cmdReady = true → p.block.fault = false ∧ p.block.inTransaction = false ∧
      (p.pins false).wdReady = false ∧ (p.pins false).rsp = none ∧ (p.pins false).rd = none) ∧
    ((p.pins false).wdReady = true → (p.pins false).rsp = none ∧ (p.pins false).rd = none) ∧
    ((p.pins false).rsp ≠ none → (p.pins false).rd = none)

/-- 30_encoding.md R71, 70_reset_and_hazards.md R236: what the block offers it keeps offering, unchanged, until the host takes
it; the whole block waits meanwhile. -/
def Obligations.OffersWaitForTheHost : Prop :=
  ∀ (p : PinState) (i : PinsIn) (pace : Nat), p.Wf → i.rst = false →
    (((p.pins false).rsp ≠ none ∧ i.rspReady = false) ∨ ((p.pins false).rd ≠ none ∧ i.rdReady = false) ∨
      ((p.pins false).wdReady = true ∧ i.wd = none) ∨ ((p.pins false).cmdReady = true ∧ i.cmd = none)) →
    p.edge i pace = .next p

/-- 30_encoding.md R74: the COPY_TO beats are offered after the response has passed, one at a time, in order, at whatever
pace the block computes between them (log 11) and however many of them have passed; but for the beats still to pass the
block is as it was. -/
def Obligations.CopyToTransport : Prop :=
  ∀ (p : PinState) (q : QueueId) (A : List Word) (pace pace' : Nat), p.Wf → (p.pins false).cmdReady = true →
    p.block.seq q = some A →
    ∃ p₁ p₂, p.feed (paced [({ PinsIn.quiet with cmd := some (encode (.copyTo q)) }, pace)]) = .next p₁ ∧
      (p₁.pins false).rsp = some (Response.word { status := .ok, data := BitVec.ofNat 32 A.length }) ∧
      (p₁.pins false).rd = none ∧
      p₁.feed (paced [({ PinsIn.quiet with rspReady := true }, pace')]) = .next p₂ ∧
      (p₂.pins false).rsp = none ∧ (p₂.pins false).rd = A.head? ∧ p₂.block = { p.block with rd := A, wd := [] } ∧
      ∀ paces : List Nat, paces.length ≤ A.length → ∃ p₃,
        p₂.feed (paced (paces.map fun k => ({ PinsIn.quiet with rdReady := true }, k))) = .next p₃ ∧
        (p₃.pins false).rd = A[paces.length]? ∧ ((p₃.pins false).cmdReady = true ↔ paces.length = A.length) ∧
        p₃.block = { p.block with rd := A.drop paces.length, wd := [] }

/-- 30_encoding.md R73, 40_construct.md R106: at the pins a LOAD whose command word and then n beats pass leaves the block as
the transaction does, at whatever pace the block computes between them. That this state stands before the response passes is
the model's choice (log 11). -/
def Obligations.PinLevelLoadIsTheTransaction : Prop :=
  ∀ (p : PinState) (q : QueueId) (length : Word) (pace : Nat) (V : List (Word × Nat)), p.Wf →
    (p.pins false).cmdReady = true → length.toNat ≤ p.block.capacity → V.length = length.toNat →
    ∃ t, exec (.load q length) { p.block with wd := V.map Prod.fst } = .next t ∧
      p.feed (paced (({ PinsIn.quiet with cmd := some (encode (.load q length)) }, pace) ::
        V.map fun v => ({ PinsIn.quiet with wd := some v.1 }, v.2))) = .next { block := t, working := 0 }

/-! ### The assembler notation -/

/-- 30_encoding.md R85: a LOAD's list gives its length to ARG and its values to the beats, a comment is dropped, `n=` gives ARG
alone; lines of the worked encodings of R86 give their words. -/
def Obligations.AssemblerLines : Prop :=
  assembleLine "LOAD q0, [3, 4] ; two beats".toList = some [{ word := 0xA000000002#40, beats := [3#32, 4#32] }] ∧
  assembleLine "LOAD q1, []".toList = some [{ word := 0xA800000000#40, beats := [] }] ∧
  assembleLine "LOAD q0, n=6".toList = some [{ word := 0xA000000006#40, beats := [] }] ∧
  assembleLine "MERGE q0, q1".toList = some [{ word := 0x8400000000#40, beats := [] }] ∧
  assembleLine "PUSH_BACK q1, 0xFFFFFFFF".toList = some [{ word := 0x28FFFFFFFF#40, beats := [] }] ∧
  assembleLine "; nothing".toList = some [] ∧
  assembleLine "PUSH_FRONT q0, 1".toList = none ∧
  assembleLine "PUSH_BACK q0, 4294967296".toList = none

/-! ### Every command at the pins -/

/-- 30_encoding.md R72, 60_exceptions.md R214: at the pins every word that passes on the cmd channel, legal or not, has the
effect of its acceptance; but for a LOAD that waits for beats, its one response is on offer once the block has computed,
whatever the pins carry meanwhile and at whatever pace; and when that response has passed, and no COPY_TO beat is to
follow, `cmd_ready` is 1 again exactly if FAULT = 0. That the edge at which the word passes already leaves the whole
effect, and that the block is `t` in every cycle before the response passes, is the model's choice, and unsafe (log 11):
those rules fix no edge for it. -/
def Obligations.CommandsAtThePins : Prop :=
  ∀ (p : PinState) (i : PinsIn) (w : CommandWord) (pace : Nat), p.Wf → (p.pins false).cmdReady = true →
    i.rst = false → i.cmd = some w →
    ∃ t, State.accept w { p.block with wd := [] } = .next t ∧ p.edge i pace = .next { block := t, working := pace } ∧
      ((∃ q n, t.xact = .loading q n [] ∧ decode w = some (.load q (BitVec.ofNat 32 n)) ∧ t.rsp = [] ∧ t.rd = []) ∨
       (t.xact = .idle ∧ ∃ r, t.rsp = [r] ∧
        (∀ js : List (PinsIn × Nat), (∀ j ∈ js, j.1.rst = false) → js.length < pace →
          ∃ p₁, PinState.feed { block := t, working := pace } js = .next p₁ ∧ p₁.block = t ∧
            (p₁.pins false).rsp = none ∧ (p₁.pins false).cmdReady = false) ∧
        (∀ js : List (PinsIn × Nat), (∀ j ∈ js, j.1.rst = false) → js.length = pace →
          ∃ p₁, PinState.feed { block := t, working := pace } js = .next p₁ ∧ p₁.block = t ∧
            (p₁.pins false).rsp = some r.word ∧ (p₁.pins false).cmdReady = false ∧
            ∀ (j : PinsIn) (pace' : Nat), j.rst = false → j.rspReady = true →
              ∃ p₂, p₁.edge j pace' = .next p₂ ∧ p₂.block = { t with rsp := [] } ∧ (p₂.pins false).rsp = none ∧
                (t.rd = [] → ((p₂.pins false).cmdReady = true ↔ t.fault = false)))))

/-- 70_reset_and_hazards.md R241: a transaction takes a finite number of clock cycles once the host gives its side of every
handshake, whatever the block's pace at each beat: the second clause. The first clause, that an edge at which the block
computes takes one from `working`, changes nothing else and heeds no pin but `rst`, is the model's choice, its form of that
finite number (log 11), and not R241's. -/
def Obligations.TransactionsTakeFinitelyManyCycles : Prop :=
  (∀ (p : PinState) (js : List (PinsIn × Nat)), (∀ j ∈ js, j.1.rst = false) → js.length ≤ p.working →
    p.feed js = .next { p with working := p.working - js.length }) ∧
  (∀ (p : PinState) (env : Nat → PinsIn × Nat), p.Wf →
    (∀ k, (env k).1.rst = false ∧ (env k).1.cmd = none ∧ (env k).1.wd ≠ none ∧ (env k).1.rspReady = true ∧
      (env k).1.rdReady = true) →
    ∃ N p', p.feed ((List.range N).map env) = .next p' ∧ p'.block.inTransaction = false ∧ p'.working = 0)

/-! ### Runs -/

/-- 60_exceptions.md R212, 00_scope.md R10, 70_reset_and_hazards.md R236, at the transaction level and at the pins: a run
that reaches FAULT = 1 has ended there, with the cause of its first such state, and is not safe, whatever follows it, a
reset included; a run without FAULT = 1 at whose end a transaction is unfinished, or an event of the host's list is still to
come, has not ended; and a safe run is one whose every state has FAULT = 0 and whose last has taken the whole list and
finished every transaction. That a reset with FAULT = 0 may stand inside a run is the model's choice (log 20). -/
def Obligations.RunsThatFaultEndBadly : Prop :=
  (∀ (s t : State) (j k : Nat), Sys2Proof.core.run j s = .next t → t.fault = true → j ≤ k →
    ¬ SafeRun k s ∧ ∃ i u, i ≤ j ∧ Sys2Proof.core.run i s = .next u ∧ u.fault = true ∧
      (∀ m, m < i → ∃ v, Sys2Proof.core.run m s = .next v ∧ v.fault = false) ∧
      s.runStatus k = .faulted u.faultCause) ∧
  (∀ (s t : State) (k : Nat), (∀ j, j ≤ k → ∃ u, Sys2Proof.core.run j s = .next u ∧ u.fault = false) →
    Sys2Proof.core.run k s = .next t → (t.xact ≠ .idle ∨ t.host ≠ []) → s.runStatus k = .unfinished) ∧
  (∀ (s : State) (k : Nat), SafeRun k s ↔
    (∀ j, j ≤ k → ∃ t, Sys2Proof.core.run j s = .next t ∧ t.fault = false) ∧
    ∃ t, Sys2Proof.core.run k s = .next t ∧ t.host = [] ∧ t.xact = .idle) ∧
  (∀ (p p' : PinState) (is js : List (PinsIn × Nat)), p.feed is = .next p' → p'.block.fault = true →
    ¬ SafePinRun (is ++ js) p ∧ ∃ n u, n ≤ is.length ∧ p.feed (is.take n) = .next u ∧ u.block.fault = true ∧
      (∀ m, m < n → ∃ v, p.feed (is.take m) = .next v ∧ v.block.fault = false) ∧
      p.runStatus (is ++ js) = .faulted u.block.faultCause) ∧
  (∀ (p p' : PinState) (is : List (PinsIn × Nat)),
    (∀ n, n ≤ is.length → ∃ u, p.feed (is.take n) = .next u ∧ u.block.fault = false) →
    p.feed is = .next p' → (p'.block.inTransaction = true ∨ p'.working ≠ 0) → p.runStatus is = .unfinished) ∧
  (∀ (p p' : PinState) (is : List (PinsIn × Nat)), p.feed is = .next p' → SafePinRun is p →
    p'.block.inTransaction = false ∧ p'.working = 0)
end

