-- ==== Sys2Proof/Laws/Encoding.lean ====
section
/-! SUPPORT. The command word seen as its eight control bits (OP, Q, Q2, RSV) and its 32 ARG bits, and what each row of the
opcode table asks of the two (30_encoding.md R75, R77). -/

namespace Sys2Proof

/-- Bits 39:32 of a command word. -/
def controlBits (w : CommandWord) : BitVec 8 := w.extractLsb' 32 8

theorem append_eq_append_iff {n m : Nat} (a c : BitVec n) (b d : BitVec m) :
    a ++ b = c ++ d ↔ a = c ∧ b = d := by
  constructor
  · intro h
    constructor
    · have := congrArg (BitVec.extractLsb' m n) h
      simpa [BitVec.extractLsb'_append_eq_of_le] using this
    · have := congrArg (BitVec.extractLsb' 0 m) h
      simpa [BitVec.extractLsb'_append_eq_of_add_le] using this
  · rintro ⟨rfl, rfl⟩
    rfl

/-- A command word is its control bits and its ARG bits. -/
theorem word_eq_control_arg (w : CommandWord) : w = controlBits w ++ argField w := by
  apply BitVec.eq_of_getLsbD_eq
  intro i hi
  rw [BitVec.getLsbD_append]
  split
  · simp [argField, *]
  · rename_i h
    simp only [controlBits, BitVec.getLsbD_extractLsb']
    rw [show 32 + (i - 32) = i by omega]
    simp [show i - 32 < 8 by omega]

@[simp] theorem controlBits_append (h : BitVec 8) (a : Word) : controlBits (h ++ a) = h := by
  unfold controlBits
  rw [BitVec.extractLsb'_append_eq_of_le (by decide)]
  simp

@[simp] theorem argField_append (h : BitVec 8) (a : Word) : argField (h ++ a) = a := by
  unfold argField
  rw [BitVec.extractLsb'_append_eq_of_add_le (by decide)]
  simp

/-- A row whose mask and match are given by control bits and ARG bits asks each of its own part. -/
theorem accepts_append (name : String) (h ph mh : BitVec 8) (a pa ma : Word) :
    (OpcodeRow.mk name (ph ++ pa) (mh ++ ma)).accepts (h ++ a) = (h &&& mh == ph && a &&& ma == pa) := by
  unfold OpcodeRow.accepts
  rw [BitVec.and_append, Bool.eq_iff_iff]
  simp only [beq_iff_eq, Bool.and_eq_true]
  exact append_eq_append_iff _ _ _ _

/-- A row without an operand: the control bits but Q are fixed and ARG is 0 (30_encoding.md R77, mask 0xF7FFFFFFFF). -/
theorem accepts_noOperand (name : String) (h ph : BitVec 8) (a : Word) :
    (OpcodeRow.mk name (ph ++ 0#32) 0xF7FFFFFFFF).accepts (h ++ a) = (h &&& 0xF7 == ph && a == 0#32) := by
  have hm : (0xF7FFFFFFFF : CommandWord) = (0xF7 : BitVec 8) ++ BitVec.allOnes 32 := by decide
  rw [hm, accepts_append, BitVec.and_allOnes]

/-- A row with an operand: the control bits but Q are fixed and ARG is free (30_encoding.md R77, mask 0xF700000000). -/
theorem accepts_operand (name : String) (h ph : BitVec 8) (a : Word) :
    (OpcodeRow.mk name (ph ++ 0#32) 0xF700000000).accepts (h ++ a) = (h &&& 0xF7 == ph) := by
  have hm : (0xF700000000 : CommandWord) = (0xF7 : BitVec 8) ++ 0#32 := by decide
  rw [hm, accepts_append]
  simp

theorem rowInit_accepts (h : BitVec 8) (a : Word) : rowInit.accepts (h ++ a) = (h &&& 0xF7 == 0x10 && a == 0#32) :=
  accepts_noOperand "INIT" h 0x10 a

theorem rowPushBack_accepts (h : BitVec 8) (a : Word) : rowPushBack.accepts (h ++ a) = (h &&& 0xF7 == 0x20) :=
  accepts_operand "PUSH_BACK" h 0x20 a

theorem rowPopBack_accepts (h : BitVec 8) (a : Word) :
    rowPopBack.accepts (h ++ a) = (h &&& 0xF7 == 0x30 && a == 0#32) :=
  accepts_noOperand "POP_BACK" h 0x30 a

theorem rowPopFront_accepts (h : BitVec 8) (a : Word) :
    rowPopFront.accepts (h ++ a) = (h &&& 0xF7 == 0x40 && a == 0#32) :=
  accepts_noOperand "POP_FRONT" h 0x40 a

theorem rowGet_accepts (h : BitVec 8) (a : Word) : rowGet.accepts (h ++ a) = (h &&& 0xF7 == 0x50) :=
  accepts_operand "GET" h 0x50 a

theorem rowFind_accepts (h : BitVec 8) (a : Word) : rowFind.accepts (h ++ a) = (h &&& 0xF7 == 0x60) :=
  accepts_operand "FIND" h 0x60 a

theorem rowRemoveAt_accepts (h : BitVec 8) (a : Word) : rowRemoveAt.accepts (h ++ a) = (h &&& 0xF7 == 0x70) :=
  accepts_operand "REMOVE_AT" h 0x70 a

theorem rowMerge_accepts (h : BitVec 8) (a : Word) :
    rowMerge.accepts (h ++ a) = (h &&& 0xF3 == 0x80 && a == 0#32) := by
  have hm : (0xF3FFFFFFFF : CommandWord) = (0xF3 : BitVec 8) ++ BitVec.allOnes 32 := by decide
  have hp : (0x8000000000 : CommandWord) = (0x80 : BitVec 8) ++ 0#32 := by decide
  unfold rowMerge
  rw [hm, hp, accepts_append, BitVec.and_allOnes]

theorem rowCopyTo_accepts (h : BitVec 8) (a : Word) :
    rowCopyTo.accepts (h ++ a) = (h &&& 0xF7 == 0x90 && a == 0#32) :=
  accepts_noOperand "COPY_TO" h 0x90 a

theorem rowLoad_accepts (h : BitVec 8) (a : Word) : rowLoad.accepts (h ++ a) = (h &&& 0xF7 == 0xA0) :=
  accepts_operand "LOAD" h 0xA0 a

theorem rowSize_accepts (h : BitVec 8) (a : Word) :
    rowSize.accepts (h ++ a) = (h &&& 0xF7 == 0xB0 && a == 0#32) :=
  accepts_noOperand "SIZE" h 0xB0 a

/-- The encoder's control bits. -/
def encodedControl (i : Instr) : BitVec 8 := i.opcode ++ bitOfQueue i.queueField ++ i.sourceField ++ 0#2

/-- An encoded instruction is its control bits and its ARG. -/
theorem encode_eq_append (i : Instr) : encode i = encodedControl i ++ i.argument := rfl

/-- The queue field of a word lies in its control bits, at bit 3. -/
theorem qField_append (h : BitVec 8) (a : Word) : qField (h ++ a) = queueOfBit (h.getLsbD 3) := by
  simp only [qField, BitVec.getLsbD_append]
  rfl

/-- The source field of a word lies in its control bits, at bit 2. -/
theorem q2Field_append (h : BitVec 8) (a : Word) : q2Field (h ++ a) = queueOfBit (h.getLsbD 2) := by
  simp only [q2Field, BitVec.getLsbD_append]
  rfl

/-- The decoder on control bits and ARG: all it can answer. -/
theorem decode_append (h : BitVec 8) (a : Word) : decode (h ++ a) =
    if (h &&& 0xF7 == 0x10 && a == 0#32) then some (.init (queueOfBit (h.getLsbD 3)))
    else if (h &&& 0xF7 == 0x20) then some (.pushBack (queueOfBit (h.getLsbD 3)) a)
    else if (h &&& 0xF7 == 0x30 && a == 0#32) then some (.popBack (queueOfBit (h.getLsbD 3)))
    else if (h &&& 0xF7 == 0x40 && a == 0#32) then some (.popFront (queueOfBit (h.getLsbD 3)))
    else if (h &&& 0xF7 == 0x50) then some (.get (queueOfBit (h.getLsbD 3)) a)
    else if (h &&& 0xF7 == 0x60) then some (.find (queueOfBit (h.getLsbD 3)) a)
    else if (h &&& 0xF7 == 0x70) then some (.removeAt (queueOfBit (h.getLsbD 3)) a)
    else if (h &&& 0xF3 == 0x80 && a == 0#32) then
      some (.merge (queueOfBit (h.getLsbD 3)) (queueOfBit (h.getLsbD 2)))
    else if (h &&& 0xF7 == 0x90 && a == 0#32) then some (.copyTo (queueOfBit (h.getLsbD 3)))
    else if (h &&& 0xF7 == 0xA0) then some (.load (queueOfBit (h.getLsbD 3)) a)
    else if (h &&& 0xF7 == 0xB0 && a == 0#32) then some (.size (queueOfBit (h.getLsbD 3)))
    else none := by
  simp only [decode, rowInit_accepts, rowPushBack_accepts, rowPopBack_accepts, rowPopFront_accepts, rowGet_accepts,
    rowFind_accepts, rowRemoveAt_accepts, rowMerge_accepts, rowCopyTo_accepts, rowLoad_accepts, rowSize_accepts,
    qField_append, q2Field_append, argField_append]

end Sys2Proof
end

