-- ==== Sys2Proof/Laws/State.lean ====
section
/-! SUPPORT. One lemma per field per update of the state, each true by unfolding that update once. -/

namespace Sys2Proof.Machine

section respond
variable (s : State) (status : Status) (data : Word)

@[simp] theorem respond_capacity : (s.respond status data).capacity = s.capacity := rfl
@[simp] theorem respond_q0 : (s.respond status data).q0 = s.q0 := rfl
@[simp] theorem respond_q1 : (s.respond status data).q1 = s.q1 := rfl
@[simp] theorem respond_fault : (s.respond status data).fault = s.fault := rfl
@[simp] theorem respond_faultCause : (s.respond status data).faultCause = s.faultCause := rfl
@[simp] theorem respond_xact : (s.respond status data).xact = s.xact := rfl
@[simp] theorem respond_resets : (s.respond status data).resets = s.resets := rfl
@[simp] theorem respond_host : (s.respond status data).host = s.host := rfl
@[simp] theorem respond_wd : (s.respond status data).wd = s.wd := rfl
@[simp] theorem respond_rsp : (s.respond status data).rsp = s.rsp ++ [{ status := status, data := data }] := rfl
@[simp] theorem respond_rd : (s.respond status data).rd = s.rd := rfl
@[simp] theorem respond_queue (q : QueueId) : (s.respond status data).queue q = s.queue q := by cases q <;> rfl
@[simp] theorem respond_seq (q : QueueId) : (s.respond status data).seq q = s.seq q := by cases q <;> rfl

end respond

section emit
variable (s : State) (beats : List Word)

@[simp] theorem emit_capacity : (s.emit beats).capacity = s.capacity := rfl
@[simp] theorem emit_q0 : (s.emit beats).q0 = s.q0 := rfl
@[simp] theorem emit_q1 : (s.emit beats).q1 = s.q1 := rfl
@[simp] theorem emit_fault : (s.emit beats).fault = s.fault := rfl
@[simp] theorem emit_faultCause : (s.emit beats).faultCause = s.faultCause := rfl
@[simp] theorem emit_xact : (s.emit beats).xact = s.xact := rfl
@[simp] theorem emit_resets : (s.emit beats).resets = s.resets := rfl
@[simp] theorem emit_host : (s.emit beats).host = s.host := rfl
@[simp] theorem emit_wd : (s.emit beats).wd = s.wd := rfl
@[simp] theorem emit_rsp : (s.emit beats).rsp = s.rsp := rfl
@[simp] theorem emit_rd : (s.emit beats).rd = s.rd ++ beats := rfl
@[simp] theorem emit_queue (q : QueueId) : (s.emit beats).queue q = s.queue q := by cases q <;> rfl
@[simp] theorem emit_seq (q : QueueId) : (s.emit beats).seq q = s.seq q := by cases q <;> rfl

end emit

section raise
variable (s : State) (cause : Cause)

@[simp] theorem raise_capacity : (s.raise cause).capacity = s.capacity := rfl
@[simp] theorem raise_q0 : (s.raise cause).q0 = s.q0 := rfl
@[simp] theorem raise_q1 : (s.raise cause).q1 = s.q1 := rfl
@[simp] theorem raise_fault : (s.raise cause).fault = true := rfl
@[simp] theorem raise_faultCause : (s.raise cause).faultCause = cause := rfl
@[simp] theorem raise_xact : (s.raise cause).xact = s.xact := rfl
@[simp] theorem raise_resets : (s.raise cause).resets = s.resets := rfl
@[simp] theorem raise_host : (s.raise cause).host = s.host := rfl
@[simp] theorem raise_wd : (s.raise cause).wd = s.wd := rfl
@[simp] theorem raise_rsp : (s.raise cause).rsp = s.rsp ++ [{ status := .faulted, data := cause.code.zeroExtend 32 }] := rfl
@[simp] theorem raise_rd : (s.raise cause).rd = s.rd := rfl
@[simp] theorem raise_queue (q : QueueId) : (s.raise cause).queue q = s.queue q := by cases q <;> rfl
@[simp] theorem raise_seq (q : QueueId) : (s.raise cause).seq q = s.seq q := by cases q <;> rfl

end raise

section applyReset
variable (s : State)

@[simp] theorem applyReset_capacity : (s.applyReset).capacity = s.capacity := rfl
@[simp] theorem applyReset_q0 : (s.applyReset).q0 = resetQueue s.capacity (s.resets + 1) .q0 := rfl
@[simp] theorem applyReset_q1 : (s.applyReset).q1 = resetQueue s.capacity (s.resets + 1) .q1 := rfl
@[simp] theorem applyReset_fault : (s.applyReset).fault = false := rfl
@[simp] theorem applyReset_faultCause : (s.applyReset).faultCause = .none := rfl
@[simp] theorem applyReset_xact : (s.applyReset).xact = .idle := rfl
@[simp] theorem applyReset_resets : (s.applyReset).resets = s.resets + 1 := rfl
@[simp] theorem applyReset_host : (s.applyReset).host = s.host := rfl
@[simp] theorem applyReset_wd : (s.applyReset).wd = s.wd := rfl
@[simp] theorem applyReset_rsp : (s.applyReset).rsp = s.rsp := rfl
@[simp] theorem applyReset_rd : (s.applyReset).rd = s.rd := rfl

end applyReset

section offer
variable (s : State) (w : CommandWord)

@[simp] theorem offer_capacity : (s.offer w).capacity = s.capacity := rfl
@[simp] theorem offer_q0 : (s.offer w).q0 = s.q0 := rfl
@[simp] theorem offer_q1 : (s.offer w).q1 = s.q1 := rfl
@[simp] theorem offer_fault : (s.offer w).fault = s.fault := rfl
@[simp] theorem offer_faultCause : (s.offer w).faultCause = s.faultCause := rfl
@[simp] theorem offer_xact : (s.offer w).xact = s.xact := rfl
@[simp] theorem offer_resets : (s.offer w).resets = s.resets := rfl
@[simp] theorem offer_host : (s.offer w).host = .command w :: s.host := rfl
@[simp] theorem offer_wd : (s.offer w).wd = offeredBeats s.capacity w ++ s.wd := rfl
@[simp] theorem offer_rsp : (s.offer w).rsp = s.rsp := rfl
@[simp] theorem offer_rd : (s.offer w).rd = s.rd := rfl
@[simp] theorem offer_queue (q : QueueId) : (s.offer w).queue q = s.queue q := by cases q <;> rfl
@[simp] theorem offer_seq (q : QueueId) : (s.offer w).seq q = s.seq q := by cases q <;> rfl

end offer

@[simp] theorem setQueue_capacity (s : State) (q : QueueId) (Q : Queue) : (s.setQueue q Q).capacity = s.capacity := by
  cases q <;> rfl
@[simp] theorem setQueue_fault (s : State) (q : QueueId) (Q : Queue) : (s.setQueue q Q).fault = s.fault := by
  cases q <;> rfl
@[simp] theorem setQueue_faultCause (s : State) (q : QueueId) (Q : Queue) : (s.setQueue q Q).faultCause = s.faultCause := by
  cases q <;> rfl
@[simp] theorem setQueue_xact (s : State) (q : QueueId) (Q : Queue) : (s.setQueue q Q).xact = s.xact := by
  cases q <;> rfl
@[simp] theorem setQueue_resets (s : State) (q : QueueId) (Q : Queue) : (s.setQueue q Q).resets = s.resets := by
  cases q <;> rfl
@[simp] theorem setQueue_host (s : State) (q : QueueId) (Q : Queue) : (s.setQueue q Q).host = s.host := by
  cases q <;> rfl
@[simp] theorem setQueue_wd (s : State) (q : QueueId) (Q : Queue) : (s.setQueue q Q).wd = s.wd := by
  cases q <;> rfl
@[simp] theorem setQueue_rsp (s : State) (q : QueueId) (Q : Queue) : (s.setQueue q Q).rsp = s.rsp := by
  cases q <;> rfl
@[simp] theorem setQueue_rd (s : State) (q : QueueId) (Q : Queue) : (s.setQueue q Q).rd = s.rd := by
  cases q <;> rfl

@[simp] theorem setQueue_queue_self (s : State) (q : QueueId) (Q : Queue) : (s.setQueue q Q).queue q = Q := by
  cases q <;> rfl

@[simp] theorem setQueue_queue_other (s : State) (q : QueueId) (Q : Queue) :
    (s.setQueue q Q).queue q.other = s.queue q.other := by
  cases q <;> rfl

theorem setQueue_queue_of_ne (s : State) (q r : QueueId) (Q : Queue) (h : r ≠ q) :
    (s.setQueue q Q).queue r = s.queue r := by
  cases q <;> cases r <;> first | rfl | exact absurd rfl h

theorem setQueue_queue (s : State) (q r : QueueId) (Q : Queue) :
    (s.setQueue q Q).queue r = if r = q then Q else s.queue r := by
  cases q <;> cases r <;> rfl

@[simp] theorem queue_q0 (s : State) : s.queue .q0 = s.q0 := rfl

@[simp] theorem queue_q1 (s : State) : s.queue .q1 = s.q1 := rfl

@[simp] theorem other_ne (q : QueueId) : q.other ≠ q := by cases q <;> decide

@[simp] theorem other_other (q : QueueId) : q.other.other = q := by cases q <;> rfl

theorem eq_or_eq_other (q r : QueueId) : r = q ∨ r = q.other := by cases q <;> cases r <;> decide

/-- A queue of a reset state: begin and size 0 (10_state.md R38). -/
@[simp] theorem resetQueue_begin (C k : Nat) (q : QueueId) : (resetQueue C k q).begin = 0 := rfl

@[simp] theorem resetQueue_size (C k : Nat) (q : QueueId) : (resetQueue C k q).size = 0 := rfl

@[simp] theorem resetQueue_storage_length (C k : Nat) (q : QueueId) :
    (resetQueue C k q).storage.length = C := by
  simp [resetQueue, unspecifiedStorage]

@[simp] theorem applyReset_queue (s : State) (q : QueueId) :
    s.applyReset.queue q = resetQueue s.capacity (s.resets + 1) q := by cases q <;> rfl

@[simp] theorem resetWith_queue (C : Nat) (q : QueueId) : (State.resetWith C).queue q = resetQueue C 0 q := by
  cases q <;> rfl

end Sys2Proof.Machine
end

