-- ==== Sys2Proof/Laws/Memory.lean ====
section
/-! SUPPORT. What reading and writing slots can do, and that every storage operation keeps `C` slots. -/

namespace Sys2Proof.Machine

theorem memory_wf_iff (C : Nat) (m : Memory) : Memory.wf C m = true ↔ m.length = C := by
  simp [Memory.wf]

/-- A read has a value exactly at the slots that exist (20_memory.md R50). -/
theorem read_isSome (m : Memory) (p : Nat) : (Memory.read m p).isSome ↔ p < m.length := by
  simp [Memory.read]

theorem read_eq_some_of_lt (m : Memory) (p : Nat) (h : p < m.length) : Memory.read m p = some m[p] := by
  simp [Memory.read, h]

/-- A write succeeds exactly at the slots that exist, and changes that one slot (20_memory.md R50, R56). -/
theorem write_of_lt (m : Memory) (p : Nat) (v : Word) (h : p < m.length) :
    Memory.write m p v = some (m.set p v) := by
  simp [Memory.write, h]

/-- All that a write can do: the slot existed, the number of slots is kept, the slot reads the value, and every other slot
reads as before. -/
theorem write_eq_some (m m' : Memory) (p : Nat) (v : Word) (h : Memory.write m p v = some m') :
    p < m.length ∧ m'.length = m.length ∧
      ∀ r, Memory.read m' r = if r = p then some v else Memory.read m r := by
  unfold Memory.write at h
  split at h
  · rename_i hp
    simp only [Option.some.injEq] at h
    subst h
    refine ⟨hp, by simp, fun r => ?_⟩
    simp only [Memory.read, List.getElem?_set]
    by_cases hr : r = p
    · simp [hr, hp]
    · simp [hr, Ne.symm hr]
  · cases h

theorem write_keeps_wf (C : Nat) (m m' : Memory) (p : Nat) (v : Word) (h : Memory.write m p v = some m')
    (hm : Memory.wf C m = true) : Memory.wf C m' = true := by
  rw [memory_wf_iff] at *
  exact (write_eq_some m m' p v h).2.1.trans hm

/-- A run of writes that fits succeeds. -/
theorem writeRun_of_fits (vs : List Word) : ∀ (m : Memory) (p : Nat), p + vs.length ≤ m.length →
    ∃ m', Memory.writeRun m p vs = some m' := by
  induction vs with
  | nil => intro m p _; exact ⟨m, rfl⟩
  | cons v vs ih =>
    intro m p h
    simp only [List.length_cons] at h
    have hw := write_of_lt m p v (by omega)
    obtain ⟨m', hm'⟩ := ih (m.set p v) (p + 1) (by simp; omega)
    exact ⟨m', by simp [Memory.writeRun, hw, hm']⟩

/-- All that a run of writes can do: the number of slots is kept, the slots from `p` on read the values in order, and every
other slot reads as before. -/
theorem writeRun_eq_some (vs : List Word) : ∀ (m m' : Memory) (p : Nat), Memory.writeRun m p vs = some m' →
    m'.length = m.length ∧
      ∀ r, Memory.read m' r = if p ≤ r ∧ r < p + vs.length then vs[r - p]? else Memory.read m r := by
  induction vs with
  | nil =>
    intro m m' p h
    simp only [Memory.writeRun, Option.some.injEq] at h
    subst h
    refine ⟨rfl, fun r => ?_⟩
    rw [if_neg (by simp)]
  | cons v vs ih =>
    intro m m' p h
    simp only [Memory.writeRun] at h
    split at h
    · cases h
    · rename_i m1 hw
      obtain ⟨_, hl, hr⟩ := write_eq_some m m1 p v hw
      obtain ⟨hl', hr'⟩ := ih m1 m' (p + 1) h
      refine ⟨hl'.trans hl, fun r => ?_⟩
      rw [hr', hr]
      by_cases h1 : r = p
      · subst h1
        simp
      · by_cases h2 : p < r
        · have : r - p = (r - (p + 1)) + 1 := by omega
          rw [this]
          simp only [List.length_cons, List.getElem?_cons_succ]
          by_cases h3 : r < p + (vs.length + 1)
          · rw [if_pos (by omega), if_pos (by omega)]
          · rw [if_neg (by omega), if_neg h1, if_neg (by omega)]
        · rw [if_neg (by omega), if_neg h1, if_neg (by omega)]

theorem writeRun_keeps_wf (C : Nat) (m m' : Memory) (p : Nat) (vs : List Word)
    (h : Memory.writeRun m p vs = some m') (hm : Memory.wf C m = true) : Memory.wf C m' = true := by
  rw [memory_wf_iff] at *
  exact (writeRun_eq_some vs m m' p h).1.trans hm

/-- The storage of a reset state has `C` slots. -/
theorem resetQueue_storage_wf (C k : Nat) (q : QueueId) : Memory.wf C (resetQueue C k q).storage = true := by
  rw [memory_wf_iff]
  exact resetQueue_storage_length C k q

/-- All that a sequence of storage accesses followed by `k` can answer with a next state. -/
theorem orSlotFault_eq_next {α : Type} (r : Option α) (k : α → Host.Outcome State Fault Refusal) (t : State)
    (h : orSlotFault r k = .next t) : ∃ a, r = some a ∧ k a = .next t := by
  cases r with
  | none => cases h
  | some a => exact ⟨a, rfl, h⟩

@[simp] theorem orSlotFault_some {α : Type} (a : α) (k : α → Host.Outcome State Fault Refusal) :
    orSlotFault (some a) k = k a := rfl

@[simp] theorem orSlotFault_none {α : Type} (k : α → Host.Outcome State Fault Refusal) :
    orSlotFault none k = .fault .slotOutOfRange := rfl

end Sys2Proof.Machine
end

