-- ==== Sys2Proof/Laws/Operands.lean ====
section
/-! SUPPORT. What the indexing engine can do: slot numbers, elements, sequences, the scan of FIND, the shift of REMOVE_AT,
the zipper. -/

namespace Sys2Proof.Machine

theorem queue_wf (s : State) (h : s.Wf) (q : QueueId) : (s.queue q).Wf s.capacity := by
  cases q
  · exact h.2.1
  · exact h.2.2.1

theorem wf_capacity_pos (s : State) (h : s.Wf) : 0 < s.capacity := h.1.1

theorem phys_lt (C : Nat) (Q : Queue) (i : Nat) (h : 0 < C) : Q.phys C i < C := Nat.mod_lt _ h

/-- One conditional subtraction (10_state.md R25). -/
theorem phys_eq_sub (C : Nat) (Q : Queue) (i : Nat) (hb : Q.begin < C) (hi : i < C) :
    Q.phys C i = if C ≤ Q.begin + i then Q.begin + i - C else Q.begin + i := by
  unfold Queue.phys
  split
  · rw [Nat.mod_eq_sub_mod (by omega), Nat.mod_eq_of_lt (by omega)]
  · exact Nat.mod_eq_of_lt (by omega)

/-- Different logical indices below `C` lie at different slots. -/
theorem phys_inj (C : Nat) (Q : Queue) (i j : Nat) (hb : Q.begin < C) (hi : i < C) (hj : j < C)
    (h : Q.phys C i = Q.phys C j) : i = j := by
  rw [phys_eq_sub C Q i hb hi, phys_eq_sub C Q j hb hj] at h
  split at h <;> split at h <;> omega

/-- Every slot is the slot of exactly one logical index below `C`. -/
theorem exists_phys (C : Nat) (Q : Queue) (p : Nat) (hb : Q.begin < C) (hp : p < C) : ∃ i, i < C ∧ Q.phys C i = p := by
  by_cases h : Q.begin ≤ p
  · refine ⟨p - Q.begin, by omega, ?_⟩
    rw [phys_eq_sub C Q _ hb (by omega), if_neg (by omega)]
    omega
  · refine ⟨p + C - Q.begin, by omega, ?_⟩
    rw [phys_eq_sub C Q _ hb (by omega), if_pos (by omega)]
    omega

theorem stepDown_eq (C b : Nat) (hb : b < C) : stepDown C b = if b = 0 then C - 1 else b - 1 := by
  unfold stepDown
  split
  · rename_i h; subst h
    rw [Nat.mod_eq_of_lt (by omega)]; omega
  · rw [Nat.mod_eq_sub_mod (by omega), Nat.mod_eq_of_lt (by omega)]; omega

theorem stepUp_eq (C b : Nat) (hb : b < C) : stepUp C b = if b = C - 1 then 0 else b + 1 := by
  unfold stepUp
  split
  · rw [show b + 1 = C by omega, Nat.mod_self]
  · exact Nat.mod_eq_of_lt (by omega)

/-- An element exists for every logical index of a well-formed queue. -/
theorem elem_isSome (C : Nat) (Q : Queue) (i : Nat) (hC : 0 < C) (h : Q.Wf C) : ∃ v, Q.elem C i = some v := by
  have hl := (memory_wf_iff C Q.storage).1 h.1
  exact ⟨_, read_eq_some_of_lt Q.storage (Q.phys C i) (hl.symm ▸ phys_lt C Q i hC)⟩

/-- All that reading `n` elements can answer: those elements, in order. -/
theorem readFrom_eq_some (C : Nat) (Q : Queue) : ∀ (n k : Nat) (vs : List Word), Q.readFrom C k n = some vs →
    vs.length = n ∧ ∀ i, i < n → vs[i]? = Q.elem C (k + i) := by
  intro n
  induction n with
  | zero =>
    intro k vs h
    simp only [Queue.readFrom, Option.some.injEq] at h
    subst h
    exact ⟨rfl, fun i hi => absurd hi (by omega)⟩
  | succ n ih =>
    intro k vs h
    simp only [Queue.readFrom] at h
    split at h
    · cases h
    · rename_i v hv
      split at h
      · cases h
      · rename_i ws hw
        simp only [Option.some.injEq] at h
        subst h
        obtain ⟨hl, he⟩ := ih (k + 1) ws hw
        refine ⟨by simp [hl], fun i hi => ?_⟩
        cases i with
        | zero => simp [hv]
        | succ i =>
          simp only [List.getElem?_cons_succ]
          rw [he i (by omega), show k + 1 + i = k + (i + 1) by omega]

/-- Reading succeeds where the elements exist. -/
theorem readFrom_of_elems (C : Nat) (Q : Queue) : ∀ (n k : Nat) (vs : List Word), vs.length = n →
    (∀ i, i < n → Q.elem C (k + i) = vs[i]?) → Q.readFrom C k n = some vs := by
  intro n
  induction n with
  | zero =>
    intro k vs hl _
    rw [List.length_eq_zero_iff] at hl
    subst hl
    rfl
  | succ n ih =>
    intro k vs hl he
    cases vs with
    | nil => simp at hl
    | cons v vs =>
      have h0 : Q.elem C k = some v := by simpa using he 0 (by omega)
      have hr := ih (k + 1) vs (by simpa using hl) (fun i hi => by
        have := he (i + 1) (by omega)
        rw [show k + (i + 1) = k + 1 + i by omega] at this
        simpa using this)
      simp [Queue.readFrom, h0, hr]

/-- The logical sequence of a well-formed queue exists (10_state.md R26). -/
theorem seq_isSome (C : Nat) (Q : Queue) (hC : 0 < C) (h : Q.Wf C) : ∃ A, Q.seq C = some A := by
  refine ⟨(List.range Q.size).map fun i => (Q.elem C i).getD 0, readFrom_of_elems C Q _ 0 _ (by simp) fun i hi => ?_⟩
  obtain ⟨v, hv⟩ := elem_isSome C Q i hC h
  simp [hi, hv]

/-- A list is the logical sequence exactly when it has `size` values and value `i` is element `i` (10_state.md R26). -/
theorem seq_eq_some_iff (C : Nat) (Q : Queue) (A : List Word) :
    Q.seq C = some A ↔ A.length = Q.size ∧ ∀ i, i < Q.size → Q.elem C i = A[i]? := by
  constructor
  · intro h
    obtain ⟨hl, he⟩ := readFrom_eq_some C Q Q.size 0 A h
    exact ⟨hl, fun i hi => by rw [he i hi, Nat.zero_add]⟩
  · rintro ⟨hl, he⟩
    exact readFrom_of_elems C Q Q.size 0 A hl fun i hi => by rw [Nat.zero_add]; exact he i hi

/-- All that FIND's scan can answer: the least index of the range that holds `v`, or that none does. -/
theorem scan_eq_some (C : Nat) (Q : Queue) (v : Word) : ∀ (n k : Nat) (r : Option Nat), Q.scan C v k n = some r →
    match r with
    | some j => k ≤ j ∧ j < k + n ∧ Q.elem C j = some v ∧ ∀ i, k ≤ i → i < j → Q.elem C i ≠ some v
    | none => ∀ i, k ≤ i → i < k + n → Q.elem C i ≠ some v := by
  intro n
  induction n with
  | zero =>
    intro k r h
    simp only [Queue.scan, Option.some.injEq] at h
    subst h
    exact fun i h1 h2 => absurd h2 (by omega)
  | succ n ih =>
    intro k r h
    simp only [Queue.scan] at h
    split at h
    · cases h
    · rename_i w hw
      split at h
      · rename_i hwv
        simp only [Option.some.injEq] at h
        subst h
        exact ⟨le_refl k, by omega, hwv ▸ hw, fun i h1 h2 => absurd h2 (by omega)⟩
      · rename_i hwv
        have hk : Q.elem C k ≠ some v := fun hc => hwv (by rw [hw] at hc; exact Option.some.inj hc)
        have := ih (k + 1) r h
        cases r with
        | some j =>
          obtain ⟨h1, h2, h3, h4⟩ := this
          refine ⟨by omega, by omega, h3, fun i hi1 hi2 => ?_⟩
          by_cases hik : i = k
          · exact hik ▸ hk
          · exact h4 i (by omega) hi2
        | none =>
          intro i hi1 hi2
          by_cases hik : i = k
          · exact hik ▸ hk
          · exact this i (by omega) (by omega)

/-- The scan succeeds on a well-formed queue. -/
theorem scan_isSome (C : Nat) (Q : Queue) (v : Word) (hC : 0 < C) (h : Q.Wf C) :
    ∀ (n k : Nat), ∃ r, Q.scan C v k n = some r := by
  intro n
  induction n with
  | zero => exact fun k => ⟨none, rfl⟩
  | succ n ih =>
    intro k
    obtain ⟨w, hw⟩ := elem_isSome C Q k hC h
    obtain ⟨r, hr⟩ := ih (k + 1)
    by_cases hwv : w = v
    · exact ⟨some k, by simp [Queue.scan, hw, hwv]⟩
    · exact ⟨r, by simp [Queue.scan, hw, hwv, hr]⟩

/-- The slots of a queue after one slot was written, seen by logical index. -/
theorem elem_write (C : Nat) (Q : Queue) (m : Memory) (k i : Nat) (v : Word) (hb : Q.begin < C) (hk : k < C) (hi : i < C)
    (h : Memory.write Q.storage (Q.phys C k) v = some m) :
    ({ Q with storage := m } : Queue).elem C i = if i = k then some v else Q.elem C i := by
  obtain ⟨_, _, hr⟩ := write_eq_some _ _ _ _ h
  show Memory.read m (Q.phys C i) = _
  rw [hr]
  by_cases hik : i = k
  · simp [hik]
  · rw [if_neg hik, if_neg fun hc => hik (phys_inj C Q i k hb hi hk hc)]
    rfl

/-- All that REMOVE_AT's loop can do on a well-formed queue: `begin`, `size` and the number of slots are kept; each index
of the range takes the element after it, from before the loop; every other index keeps its element. -/
theorem shift_of_wf (C : Nat) : ∀ (n k : Nat) (Q : Queue), Q.Wf C → k + n < C →
    ∃ Q', Q.shift C k n = some Q' ∧ Q'.begin = Q.begin ∧ Q'.size = Q.size ∧ Memory.wf C Q'.storage = true ∧
      ∀ i, i < C → Q'.elem C i = if k ≤ i ∧ i < k + n then Q.elem C (i + 1) else Q.elem C i := by
  intro n
  induction n with
  | zero =>
    intro k Q h _
    exact ⟨Q, rfl, rfl, rfl, h.1, fun i _ => by rw [if_neg (by omega)]⟩
  | succ n ih =>
    intro k Q h hk
    have hl := (memory_wf_iff C Q.storage).1 h.1
    obtain ⟨v, hv⟩ := elem_isSome C Q (k + 1) (by omega) h
    have hp : Q.phys C k < Q.storage.length := hl.symm ▸ phys_lt C Q k (by omega)
    have hw := write_of_lt Q.storage (Q.phys C k) v hp
    have hm := write_keeps_wf C _ _ _ _ hw h.1
    obtain ⟨Q', hs, h1, h2, h3, h4⟩ := ih (k + 1) { Q with storage := Q.storage.set (Q.phys C k) v }
      ⟨hm, h.2⟩ (by omega)
    refine ⟨Q', by simp [Queue.shift, hv, hw, hs], h1, h2, h3, fun i hi => ?_⟩
    rw [h4 i hi]
    by_cases hik : i = k
    · subst hik
      rw [if_neg (by omega), if_pos (by omega), elem_write C Q _ i i v h.2.1 hi hi hw, if_pos rfl, hv]
    · by_cases hr : k + 1 ≤ i ∧ i < k + 1 + n
      · rw [if_pos hr, if_pos (by omega), elem_write C Q _ k (i + 1) v h.2.1 (by omega) (by omega) hw,
          if_neg (by omega)]
      · rw [if_neg hr, if_neg (by omega), elem_write C Q _ k i v h.2.1 (by omega) hi hw, if_neg hik]

/-- The length of a zipper is the sum of the lengths (43_merge.md R164, R169). -/
@[simp] theorem zipper_length : ∀ (A B : List Word), (zipper A B).length = A.length + B.length
  | [], B => by simp [zipper]
  | a :: A, [] => by simp [zipper]
  | a :: A, b :: B => by simp [zipper, zipper_length A B]; omega

@[simp] theorem zipper_nil_right (A : List Word) : zipper A [] = A := by cases A <;> rfl

@[simp] theorem zipper_nil_left (B : List Word) : zipper [] B = B := rfl

@[simp] theorem zipper_cons_cons (a b : Word) (A B : List Word) :
    zipper (a :: A) (b :: B) = a :: b :: zipper A B := rfl

end Sys2Proof.Machine
end

