-- ==== Sys2Proof/Laws/Machine.lean ====
section
/-! SUPPORT. What a step, a waiting LOAD and each shared path of the machine can do: one inversion lemma each. -/

namespace Sys2Proof.Machine

/-- All a step can be: a reset; the halt; a LOAD going on; a command accepted; or idling, with a command whose operands are
not at hand or with none. -/
theorem step_eq (s : State) :
    (∃ rest, s.host = .reset :: rest ∧ step s = .next ({ s with host := rest } : State).applyReset) ∨
    ((∀ rest, s.host ≠ .reset :: rest) ∧ s.fault = true ∧ step s = .fault (.halted s.faultCause)) ∨
    ((∀ rest, s.host ≠ .reset :: rest) ∧ s.fault = false ∧
      ((∃ q n taken, s.xact = .loading q n taken ∧ step s = s.takeBeats q n taken) ∨
       (s.xact = .idle ∧ ∃ w rest, s.host = .command w :: rest ∧ s.presents w = true ∧
          step s = ({ s with host := rest } : State).accept w) ∨
       (s.xact = .idle ∧ ∃ w rest, s.host = .command w :: rest ∧ s.presents w = false ∧ step s = .next s) ∨
       (s.xact = .idle ∧ s.host = [] ∧ step s = .next s))) := by
  unfold step State.advance State.proceed
  cases hh : s.host with
  | nil =>
    cases hf : s.fault with
    | true => exact .inr (.inl ⟨by simp, rfl, by simp⟩)
    | false =>
      cases hx : s.xact with
      | idle => exact .inr (.inr ⟨by simp, rfl, .inr (.inr (.inr ⟨rfl, rfl, by simp⟩))⟩)
      | loading q n taken => exact .inr (.inr ⟨by simp, rfl, .inl ⟨q, n, taken, rfl, by simp⟩⟩)
  | cons e rest =>
    cases e with
    | reset => exact .inl ⟨rest, rfl, rfl⟩
    | command w =>
      cases hf : s.fault with
      | true => exact .inr (.inl ⟨by simp, rfl, by simp⟩)
      | false =>
        cases hx : s.xact with
        | idle =>
          cases hp : s.presents w with
          | true => exact .inr (.inr ⟨by simp, rfl, .inr (.inl ⟨rfl, w, rest, rfl, hp, by simp [hp]⟩)⟩)
          | false => exact .inr (.inr ⟨by simp, rfl, .inr (.inr (.inl ⟨rfl, w, rest, rfl, hp, by simp [hp]⟩))⟩)
        | loading q n taken => exact .inr (.inr ⟨by simp, rfl, .inl ⟨q, n, taken, rfl, by simp⟩⟩)

/-- A LOAD with all its beats: the whole effect at once (40_construct.md R104, R106). -/
theorem takeBeats_of_enough (q : QueueId) (n : Nat) (taken : List Word) (s : State) (hs : s.Wf) (hn : n ≤ s.capacity)
    (ht : taken.length ≤ n) (h : n ≤ taken.length + s.wd.length) :
    ∃ m, Memory.writeRun (s.queue q).storage 0 (taken ++ s.wd.take (n - taken.length)) = some m ∧
      s.takeBeats q n taken = .next
        ((({ s with wd := s.wd.drop (n - taken.length), xact := .idle } : State).setQueue q
          { storage := m, begin := 0, size := n }).respond .ok 0) := by
  have hl : (taken ++ s.wd.take (n - taken.length)).length = n := by simp; omega
  have hq := queue_wf s hs q
  have hc := (memory_wf_iff _ _).1 hq.1
  obtain ⟨m, hm⟩ := writeRun_of_fits (taken ++ s.wd.take (n - taken.length)) (s.queue q).storage 0 (by omega)
  refine ⟨m, hm, ?_⟩
  unfold State.takeBeats
  simp only [hm, orSlotFault_some]
  rw [if_neg (by omega)]

/-- A LOAD that still misses beats: it takes those that have come and waits (40_construct.md R106). -/
theorem takeBeats_of_missing (q : QueueId) (n : Nat) (taken : List Word) (s : State)
    (h : taken.length + s.wd.length < n) :
    s.takeBeats q n taken = .next { s with wd := [], xact := .loading q n (taken ++ s.wd) } := by
  have h1 : s.wd.take (n - taken.length) = s.wd := List.take_of_length_le (by omega)
  have h2 : s.wd.drop (n - taken.length) = [] := List.drop_of_length_le (by omega)
  unfold State.takeBeats
  simp only [h1, h2]
  rw [if_pos (by simp; omega)]

/-- Two LOADs with the same beats, taken in pieces or at once, are the same. -/
theorem takeBeats_append (q : QueueId) (n : Nat) (taken more rest : List Word) (s : State)
    (h : taken.length + more.length ≤ n) :
    ({ s with wd := rest } : State).takeBeats q n (taken ++ more) =
      ({ s with wd := more ++ rest } : State).takeBeats q n taken := by
  have h1 : (more ++ rest).take (n - taken.length) = more ++ rest.take (n - (taken ++ more).length) := by
    rw [List.take_append, List.take_of_length_le (by omega)]
    simp [Nat.sub_sub]
  have h2 : (more ++ rest).drop (n - taken.length) = rest.drop (n - (taken ++ more).length) := by
    rw [List.drop_append, List.drop_of_length_le (by omega)]
    simp [Nat.sub_sub]
  unfold State.takeBeats
  simp only [h1, h2, List.append_assoc]
  rfl

/-- A state with a queue replaced by a well-formed queue is well formed. -/
theorem setQueue_wf (s : State) (q : QueueId) (Q : Queue) (hs : s.Wf) (hQ : Q.Wf s.capacity) : (s.setQueue q Q).Wf := by
  obtain ⟨h1, h2, h3, h4, h5⟩ := hs
  cases q
  · exact ⟨h1, hQ, h3, h4, h5⟩
  · exact ⟨h1, h2, hQ, h4, h5⟩

/-- An answer keeps the invariants. -/
theorem respond_wf (s : State) (status : Status) (data : Word) (hs : s.Wf) : (s.respond status data).Wf := hs

/-- COPY_TO beats keep the invariants. -/
theorem emit_wf (s : State) (beats : List Word) (hs : s.Wf) : (s.emit beats).Wf := hs

/-- Fault entry keeps the invariants, for a command that runs while no LOAD waits. -/
theorem raise_wf (s : State) (c : Cause) (hs : s.Wf) (hc : c ≠ .none) (hx : s.xact = .idle) : (s.raise c).Wf := by
  obtain ⟨h1, h2, h3, _, _⟩ := hs
  exact ⟨h1, h2, h3, by simp [hc], by simp [hx, Transaction.wf]⟩

/-- Reset gives a well-formed state. -/
theorem applyReset_wf (s : State) (hs : s.Wf) : s.applyReset.Wf := by
  have h1 := hs.1
  have hq : ∀ q, (resetQueue s.capacity (s.resets + 1) q).Wf s.capacity := fun q =>
    ⟨resetQueue_storage_wf _ _ _, h1.1, Nat.zero_le _⟩
  exact ⟨h1, hq .q0, hq .q1, by simp, by simp [Transaction.wf]⟩

end Sys2Proof.Machine
end

