-- ==== Sys2Proof/Laws/Exec.lean ====
section
/-! SUPPORT. What each command can do: if it answers a next state, one of these cases holds. -/

namespace Sys2Proof.Machine

theorem execInit_cases (q : QueueId) (s t : State) (h : exec (.init q) s = .next t) :
    t = (s.setQueue q { s.queue q with begin := 0, size := 0 }).respond .ok 0 := by
  simp only [exec, execInit, Host.Outcome.next.injEq] at h
  exact h.symm

theorem execPushBack_cases (q : QueueId) (v : Word) (s t : State) (h : exec (.pushBack q v) s = .next t) :
    ((s.queue q).size = s.capacity ∧ t = s.respond .capacityExceeded 0) ∨
    ((s.queue q).size ≠ s.capacity ∧ ∃ m,
      Memory.write (s.queue q).storage (stepDown s.capacity (s.queue q).begin) v = some m ∧
      t = (s.setQueue q { storage := m, begin := stepDown s.capacity (s.queue q).begin
                          size := (s.queue q).size + 1 }).respond .ok 0) := by
  simp only [exec, execPushBack] at h
  split at h
  · rename_i hs
    simp only [Host.Outcome.next.injEq] at h
    exact .inl ⟨hs, h.symm⟩
  · rename_i hs
    obtain ⟨m, hm, hk⟩ := orSlotFault_eq_next _ _ _ h
    simp only [Host.Outcome.next.injEq] at hk
    exact .inr ⟨hs, m, hm, hk.symm⟩

theorem execPopBack_cases (q : QueueId) (s t : State) (h : exec (.popBack q) s = .next t) :
    ((s.queue q).size = 0 ∧ t = s.respond .empty 0) ∨
    ((s.queue q).size ≠ 0 ∧ ∃ v, Memory.read (s.queue q).storage (s.queue q).begin = some v ∧
      t = (s.setQueue q { s.queue q with begin := stepUp s.capacity (s.queue q).begin
                                         size := (s.queue q).size - 1 }).respond .ok v) := by
  simp only [exec, execPopBack] at h
  split at h
  · rename_i hs
    simp only [Host.Outcome.next.injEq] at h
    exact .inl ⟨hs, h.symm⟩
  · rename_i hs
    obtain ⟨v, hv, hk⟩ := orSlotFault_eq_next _ _ _ h
    simp only [Host.Outcome.next.injEq] at hk
    exact .inr ⟨hs, v, hv, hk.symm⟩

theorem execPopFront_cases (q : QueueId) (s t : State) (h : exec (.popFront q) s = .next t) :
    ((s.queue q).size = 0 ∧ t = s.respond .empty 0) ∨
    ((s.queue q).size ≠ 0 ∧ ∃ v, Memory.read (s.queue q).storage ((s.queue q).frontPtr s.capacity) = some v ∧
      t = (s.setQueue q { s.queue q with size := (s.queue q).size - 1 }).respond .ok v) := by
  simp only [exec, execPopFront] at h
  split at h
  · rename_i hs
    simp only [Host.Outcome.next.injEq] at h
    exact .inl ⟨hs, h.symm⟩
  · rename_i hs
    obtain ⟨v, hv, hk⟩ := orSlotFault_eq_next _ _ _ h
    simp only [Host.Outcome.next.injEq] at hk
    exact .inr ⟨hs, v, hv, hk.symm⟩

theorem execGet_cases (q : QueueId) (i : Word) (s t : State) (h : exec (.get q i) s = .next t) :
    (i.toNat < (s.queue q).size ∧ ∃ v, (s.queue q).elem s.capacity i.toNat = some v ∧ t = s.respond .ok v) ∨
    ((s.queue q).size ≤ i.toNat ∧ t = s.raise .indexOutOfRange) := by
  simp only [exec, execGet, Queue.hasIndex, decide_eq_true_eq] at h
  split at h
  · rename_i hs
    obtain ⟨v, hv, hk⟩ := orSlotFault_eq_next _ _ _ h
    simp only [Host.Outcome.next.injEq] at hk
    exact .inl ⟨hs, v, hv, hk.symm⟩
  · rename_i hs
    simp only [Host.Outcome.next.injEq] at h
    exact .inr ⟨by omega, h.symm⟩

theorem execFind_cases (q : QueueId) (v : Word) (s t : State) (h : exec (.find q v) s = .next t) :
    (∃ k, (s.queue q).scan s.capacity v 0 (s.queue q).size = some (some k) ∧
      t = s.respond .ok (BitVec.ofNat 32 k)) ∨
    ((s.queue q).scan s.capacity v 0 (s.queue q).size = some none ∧ t = s.respond .notFound 0) := by
  simp only [exec, execFind] at h
  obtain ⟨r, hr, hk⟩ := orSlotFault_eq_next _ _ _ h
  cases r with
  | some k =>
    simp only [Host.Outcome.next.injEq] at hk
    exact .inl ⟨k, hr, hk.symm⟩
  | none =>
    simp only [Host.Outcome.next.injEq] at hk
    exact .inr ⟨hr, hk.symm⟩

theorem execRemoveAt_cases (q : QueueId) (i : Word) (s t : State) (h : exec (.removeAt q i) s = .next t) :
    (i.toNat < (s.queue q).size ∧ ∃ Q', (s.queue q).shift s.capacity i.toNat ((s.queue q).size - 1 - i.toNat) = some Q' ∧
      t = (s.setQueue q { Q' with size := (s.queue q).size - 1 }).respond .ok 0) ∨
    ((s.queue q).size ≤ i.toNat ∧ t = s.raise .indexOutOfRange) := by
  simp only [exec, execRemoveAt, Queue.hasIndex, decide_eq_true_eq] at h
  split at h
  · rename_i hs
    obtain ⟨v, hv, hk⟩ := orSlotFault_eq_next _ _ _ h
    simp only [Host.Outcome.next.injEq] at hk
    exact .inl ⟨hs, v, hv, hk.symm⟩
  · rename_i hs
    simp only [Host.Outcome.next.injEq] at h
    exact .inr ⟨by omega, h.symm⟩

theorem execMerge_cases (d src : QueueId) (s t : State) (h : exec (.merge d src) s = .next t) :
    (d = src ∧ t = s.raise .mergeAlias) ∨
    (d ≠ src ∧ s.capacity < (s.queue d).size + (s.queue src).size ∧ t = s.respond .wouldExceedCapacity 0) ∨
    (d ≠ src ∧ (s.queue d).size + (s.queue src).size ≤ s.capacity ∧ ∃ A B m, s.seq d = some A ∧ s.seq src = some B ∧
      Memory.writeRun (s.queue d).storage 0 (zipper A B) = some m ∧
      t = ((s.setQueue d { storage := m, begin := 0, size := (s.queue d).size + (s.queue src).size }).setQueue src
        { s.queue src with size := 0 }).respond .ok 0) := by
  simp only [exec, execMerge] at h
  split at h
  · rename_i hd
    simp only [Host.Outcome.next.injEq] at h
    exact .inl ⟨hd, h.symm⟩
  · rename_i hd
    split at h
    · rename_i hc
      simp only [Host.Outcome.next.injEq] at h
      exact .inr (.inl ⟨hd, hc, h.symm⟩)
    · rename_i hc
      obtain ⟨A, hA, h⟩ := orSlotFault_eq_next _ _ _ h
      obtain ⟨B, hB, h⟩ := orSlotFault_eq_next _ _ _ h
      obtain ⟨m, hm, h⟩ := orSlotFault_eq_next _ _ _ h
      simp only [Host.Outcome.next.injEq] at h
      exact .inr (.inr ⟨hd, by omega, A, B, m, hA, hB, hm, h.symm⟩)

theorem execCopyTo_cases (q : QueueId) (s t : State) (h : exec (.copyTo q) s = .next t) :
    ∃ A, s.seq q = some A ∧ t = (s.respond .ok (BitVec.ofNat 32 (s.queue q).size)).emit A := by
  simp only [exec, execCopyTo] at h
  obtain ⟨A, hA, hk⟩ := orSlotFault_eq_next _ _ _ h
  simp only [Host.Outcome.next.injEq] at hk
  exact ⟨A, hA, hk.symm⟩

theorem execLoad_cases (q : QueueId) (n : Word) (s t : State) (h : exec (.load q n) s = .next t) :
    (s.capacity < n.toNat ∧ t = s.raise .loadLength) ∨
    (n.toNat ≤ s.capacity ∧ s.wd.length < n.toNat ∧
      t = { s with wd := [], xact := .loading q n.toNat s.wd }) ∨
    (n.toNat ≤ s.capacity ∧ n.toNat ≤ s.wd.length ∧ ∃ m,
      Memory.writeRun (s.queue q).storage 0 (s.wd.take n.toNat) = some m ∧
      t = (({ s with wd := s.wd.drop n.toNat, xact := .idle } : State).setQueue q
        { storage := m, begin := 0, size := n.toNat }).respond .ok 0) := by
  simp only [exec, execLoad] at h
  split at h
  · rename_i hc
    simp only [Host.Outcome.next.injEq] at h
    exact .inl ⟨hc, h.symm⟩
  · rename_i hc
    by_cases hw : s.wd.length < n.toNat
    · rw [takeBeats_of_missing q n.toNat [] s (by simpa using hw)] at h
      simp only [Host.Outcome.next.injEq, List.nil_append] at h
      exact .inr (.inl ⟨by omega, hw, h.symm⟩)
    · unfold State.takeBeats at h
      simp only [List.nil_append, List.length_nil, Nat.sub_zero] at h
      rw [if_neg (by simp; omega)] at h
      obtain ⟨m, hm, hk⟩ := orSlotFault_eq_next _ _ _ h
      simp only [Host.Outcome.next.injEq] at hk
      exact .inr (.inr ⟨by omega, by omega, m, hm, hk.symm⟩)

theorem execSize_cases (q : QueueId) (s t : State) (h : exec (.size q) s = .next t) :
    t = s.respond .ok (BitVec.ofNat 32 (s.queue q).size) := by
  simp only [exec, execSize, Host.Outcome.next.injEq] at h
  exact h.symm

end Sys2Proof.Machine
end

