-- ==== Sys2Proof/Laws/PerInstr.lean ====
section
/-! SUPPORT. Statements made per instruction: each instruction's own row of the opcode table takes its encoding. -/

namespace Sys2Proof.Laws

/-- The row of the opcode table that stands for `i` takes the word the encoder makes of `i`, whatever its operands
(30_encoding.md R77). -/
def OwnRow.Statement (i : Instr) : Prop := i.row.accepts (encode i) = true

theorem OwnRow.init (q : QueueId) : OwnRow.Statement (.init q) := by
  cases q <;> exact rowInit_accepts _ 0

theorem OwnRow.pushBack (q : QueueId) (value : Word) : OwnRow.Statement (.pushBack q value) :=
  (rowPushBack_accepts (encodedControl (.pushBack q value)) value).trans <| by
    change ((0x2#4 ++ bitOfQueue q ++ 0#1 ++ 0#2) &&& (0xF7 : BitVec 8) == 0x20) = true
    cases q <;> decide

theorem OwnRow.popBack (q : QueueId) : OwnRow.Statement (.popBack q) := by
  cases q <;> exact rowPopBack_accepts _ 0

theorem OwnRow.popFront (q : QueueId) : OwnRow.Statement (.popFront q) := by
  cases q <;> exact rowPopFront_accepts _ 0

theorem OwnRow.get (q : QueueId) (index : Word) : OwnRow.Statement (.get q index) :=
  (rowGet_accepts (encodedControl (.get q index)) index).trans <| by
    change ((0x5#4 ++ bitOfQueue q ++ 0#1 ++ 0#2) &&& (0xF7 : BitVec 8) == 0x50) = true
    cases q <;> decide

theorem OwnRow.find (q : QueueId) (value : Word) : OwnRow.Statement (.find q value) :=
  (rowFind_accepts (encodedControl (.find q value)) value).trans <| by
    change ((0x6#4 ++ bitOfQueue q ++ 0#1 ++ 0#2) &&& (0xF7 : BitVec 8) == 0x60) = true
    cases q <;> decide

theorem OwnRow.removeAt (q : QueueId) (index : Word) : OwnRow.Statement (.removeAt q index) :=
  (rowRemoveAt_accepts (encodedControl (.removeAt q index)) index).trans <| by
    change ((0x7#4 ++ bitOfQueue q ++ 0#1 ++ 0#2) &&& (0xF7 : BitVec 8) == 0x70) = true
    cases q <;> decide

theorem OwnRow.merge (d s : QueueId) : OwnRow.Statement (.merge d s) := by
  cases d <;> cases s <;> exact rowMerge_accepts _ 0

theorem OwnRow.copyTo (q : QueueId) : OwnRow.Statement (.copyTo q) := by
  cases q <;> exact rowCopyTo_accepts _ 0

theorem OwnRow.load (q : QueueId) (length : Word) : OwnRow.Statement (.load q length) :=
  (rowLoad_accepts (encodedControl (.load q length)) length).trans <| by
    change ((0xA#4 ++ bitOfQueue q ++ 0#1 ++ 0#2) &&& (0xF7 : BitVec 8) == 0xA0) = true
    cases q <;> decide

theorem OwnRow.size (q : QueueId) : OwnRow.Statement (.size q) := by
  cases q <;> exact rowSize_accepts _ 0

end Sys2Proof.Laws
end

