-- ==== Sys2Proof/Laws/Runs.lean ====
section
/-! SUPPORT. What the presenting of a command, a clock edge and a run can be: one inversion lemma each. -/

namespace Sys2Proof.Machine

/-- A command misses its operands only when it is a LOAD of legal length whose beats are not all at hand. -/
theorem hasOperands_eq_false (s : State) (i : Instr) :
    s.hasOperands i = false ↔
      ∃ q length, i = .load q length ∧ length.toNat ≤ s.capacity ∧ s.wd.length < length.toNat := by
  cases i <;> simp [State.hasOperands]

/-- A word that decodes is presented when its command's operands are at hand. -/
theorem presents_of_decode (s : State) (w : CommandWord) (i : Instr) (h : decode w = some i) :
    s.presents w = s.hasOperands i := by
  simp [State.presents, h]

/-- An illegal word needs nothing to be presented. -/
theorem presents_of_illegal (s : State) (w : CommandWord) (h : decode w = none) : s.presents w = true := by
  simp [State.presents, h]

/-- An edge with `rst` = 1. -/
theorem edge_of_reset (p : PinState) (i : PinsIn) (pace : Nat) (h : i.rst = true) :
    p.edge i pace = .next p.resetEdge := by
  simp [PinState.edge, h]

/-- An edge at which the block computes. -/
theorem edge_of_working (p : PinState) (i : PinsIn) (pace n : Nat) (hr : i.rst = false) (hw : p.working = n + 1) :
    p.edge i pace = .next { p with working := n } := by
  simp [PinState.edge, hr, hw]

/-- An edge at which a command word passes. -/
theorem edge_of_command (p : PinState) (i : PinsIn) (pace : Nat) (w : CommandWord) (hr : i.rst = false)
    (hp : p.cmdReady false = true) (hc : i.cmd = some w) :
    p.edge i pace = settle pace (({ p.block with wd := [] } : State).accept w) := by
  have hw : p.working = 0 := by simp [PinState.cmdReady] at hp; omega
  simp [PinState.edge, hr, hw, hp, hc]

/-- An edge at which a data beat of a waiting LOAD passes. -/
theorem edge_of_beat (p : PinState) (i : PinsIn) (pace : Nat) (q : QueueId) (n : Nat) (taken : List Word) (v : Word)
    (hr : i.rst = false) (hw : p.working = 0) (hx : p.block.xact = .loading q n taken) (hv : i.wd = some v) :
    p.edge i pace = settle pace (({ p.block with wd := [v] } : State).takeBeats q n taken) := by
  simp [PinState.edge, PinState.cmdReady, State.inTransaction, hr, hw, hx, hv]

/-- An edge at which a response passes. -/
theorem edge_of_response (p : PinState) (i : PinsIn) (pace : Nat) (r : Response) (rest : List Response)
    (hr : i.rst = false) (hw : p.working = 0) (hx : p.block.xact = .idle) (hq : p.block.rsp = r :: rest)
    (hy : i.rspReady = true) :
    p.edge i pace = settle pace (.next { p.block with rsp := rest }) := by
  simp [PinState.edge, PinState.cmdReady, State.inTransaction, hr, hw, hx, hq, hy]

/-- An edge at which a COPY_TO beat passes. -/
theorem edge_of_read (p : PinState) (i : PinsIn) (pace : Nat) (v : Word) (rest : List Word)
    (hr : i.rst = false) (hw : p.working = 0) (hx : p.block.xact = .idle) (hq : p.block.rsp = [])
    (hd : p.block.rd = v :: rest) (hy : i.rdReady = true) :
    p.edge i pace = settle pace (.next { p.block with rd := rest }) := by
  simp [PinState.edge, PinState.cmdReady, State.inTransaction, hr, hw, hx, hq, hd, hy]

/-- Edges fed in two pieces. -/
theorem feed_append (is js : List (PinsIn × Nat)) (p p' : PinState) (h : p.feed is = .next p') :
    p.feed (is ++ js) = p'.feed js := by
  induction is generalizing p with
  | nil => cases h; rfl
  | cons j is ih =>
    obtain ⟨i, pace⟩ := j
    simp only [PinState.feed, List.cons_append] at h ⊢
    cases he : p.edge i pace with
    | next t => rw [he] at h; exact ih t h
    | fault r => rw [he] at h; cases h
    | refused r => rw [he] at h; cases h

/-- A run that has come to FAULT = 1 has ended there, however many steps are still allowed. -/
theorem runStatus_of_fault (k : Nat) (s : State) (h : s.fault = true) : s.runStatus k = .faulted s.faultCause := by
  cases k <;> simp [State.runStatus, State.standing, h]

/-- While FAULT = 0 a run stands as the run of one step less from the next state. -/
theorem runStatus_of_next (k : Nat) (s t : State) (h : s.fault = false) (hn : step s = .next t) :
    s.runStatus (k + 1) = t.runStatus k := by
  simp [State.runStatus, h, hn]

/-- A run at the pins that has come to FAULT = 1 has ended there. -/
theorem pinRunStatus_of_fault (is : List (PinsIn × Nat)) (p : PinState) (h : p.block.fault = true) :
    p.runStatus is = .faulted p.block.faultCause := by
  cases is <;> simp [PinState.runStatus, PinState.standing, h]

/-- While FAULT = 0 a run at the pins stands as the rest of its edges from the next state. -/
theorem pinRunStatus_of_next (i : PinsIn) (pace : Nat) (is : List (PinsIn × Nat)) (p p' : PinState)
    (h : p.block.fault = false) (hn : p.edge i pace = .next p') : p.runStatus ((i, pace) :: is) = p'.runStatus is := by
  simp [PinState.runStatus, h, hn]

end Sys2Proof.Machine
end

