-- ==== Sys2Proof/Tests/Slice0.lean ====
section
/-! SUPPORT. The model's own tests, on fixed values, and for every obligation with hypotheses one theorem `witness_…` that
shows values that meet them together. Expected results come from 95_test_vectors.md and 30_encoding.md R86. -/

namespace Sys2Proof.Tests
open Sys2Proof Sys2Proof.Machine

/-! ### Small states -/

/-- A block of capacity `C` at rest, with FAULT = 0. -/
def rest (C : Nat) (Q0 Q1 : Queue) : State :=
  { State.resetWith C with q0 := Q0, q1 := Q1 }

/-- The state S1 of 95_test_vectors.md (q1's slots hold 7s). -/
def s1 : State := rest 5 ⟨[3, 4, 0, 1, 2], 3, 4⟩ ⟨[7, 7, 7, 7, 7], 0, 0⟩

/-- q0 full. -/
def full : State := rest 5 ⟨[3, 4, 15, 1, 2], 2, 5⟩ ⟨[7, 7, 7, 7, 7], 0, 0⟩

/-- q0 has one element, at the last slot, and q1 has its back there. -/
def single : State := rest 5 ⟨[0, 1, 2, 3, 7], 4, 1⟩ ⟨[8, 9, 0, 0, 7], 4, 2⟩

/-- The state of the merge vectors: both ranges wrapped. -/
def pair : State := rest 5 ⟨[3, 4, 0, 1, 2], 3, 3⟩ ⟨[8, 9, 0, 0, 7], 4, 2⟩

/-- A block of capacity 1 with q0 full. -/
def tiny : State := rest 1 ⟨[5], 0, 1⟩ ⟨[6], 0, 0⟩

/-- S1 halted with cause 2. -/
def halted : State := { s1 with fault := true, faultCause := .indexOutOfRange }

/-- S1 with a LOAD of two beats that has had one. -/
def waiting : State := { s1 with xact := .loading .q0 2 [8] }

/-- The next state of an outcome, if there is one. -/
def nextOf {α : Type} : Host.Outcome α Fault Refusal → Option α
  | .next t => some t
  | .fault _ => none
  | .refused _ => none

/-- The state after the word `w`, offered by the host, has run. -/
def onWord (s : State) (w : Nat) : Option State := nextOf (step (s.withFetchWord 40 w))

/-- What a word leaves in queue q0, and the responses given. -/
def seen (s : State) (w : Nat) : Option (Queue × List Response) := (onWord s w).map fun t => (t.q0, t.rsp)

/-! ### Well-formedness: a word that each check refuses -/

theorem test_op_zero_is_ill_formed : opLegal 0x0000000000 = false ∧ wordLegal 0x0000000000 = false := by decide
theorem test_op_twelve_is_ill_formed : opLegal 0xC000000000 = false ∧ wordLegal 0xC000000000 = false := by decide
theorem test_rsv_is_ill_formed : rsvLegal 0x5100000000 = false ∧ wordLegal 0x5100000000 = false := by decide
theorem test_q2_is_ill_formed : q2Legal 0x2400000005 = false ∧ wordLegal 0x2400000005 = false := by decide
theorem test_arg_is_ill_formed : argLegal 0x3000000001 = false ∧ wordLegal 0x3000000001 = false := by decide
theorem test_merge_word_is_well_formed : wordLegal 0x8C00000000 = true ∧ wordLegal 0x8400000001 = false := by decide

/-! ### Decoding: words written out from R75 and R86 -/

theorem test_decode_init : decode 0x1800000000 = some (.init .q1) := by decide
theorem test_decode_push_back : decode 0x28FFFFFFFF = some (.pushBack .q1 0xFFFFFFFF) := by decide
theorem test_decode_pop_back : decode 0x3000000000 = some (.popBack .q0) := by decide
theorem test_decode_pop_front : decode 0x4800000000 = some (.popFront .q1) := by decide
theorem test_decode_get : decode 0x5000000002 = some (.get .q0 2) := by decide
theorem test_decode_find : decode 0x6000000003 = some (.find .q0 3) := by decide
theorem test_decode_remove_at : decode 0x7800000001 = some (.removeAt .q1 1) := by decide
theorem test_decode_merge : decode 0x8400000000 = some (.merge .q0 .q1) := by decide
theorem test_decode_copy_to : decode 0x9000000000 = some (.copyTo .q0) := by decide
theorem test_decode_load : decode 0xA000000002 = some (.load .q0 2) := by decide
theorem test_decode_size : decode 0xB800000000 = some (.size .q1) := by decide
theorem test_decode_bits_of_get :
    decode 0b0101100000000000000000000000000000000101#40 = some (.get .q1 5) := by decide
theorem test_decode_refuses_all_ones : decode 0xFFFFFFFFFF = none := by decide
theorem test_decode_table_word : decodeTableWord 40 0x8800000000 = some (.merge .q1 .q0) := by decide
theorem test_decode_table_word_too_long : decodeTableWord 48 0x18800000000000 = none := by decide

/-! ### Commands, one step each -/

theorem test_init_resets_begin : seen s1 0x1000000000 = some (⟨[3, 4, 0, 1, 2], 0, 0⟩, [⟨.ok, 0⟩]) := by decide
theorem test_push_back_steps_down : seen s1 0x200000000F = some (⟨[3, 4, 15, 1, 2], 2, 5⟩, [⟨.ok, 0⟩]) := by decide
theorem test_push_back_full : seen full 0x200000000A = some (full.q0, [⟨.capacityExceeded, 0⟩]) := by decide
theorem test_pop_back_wraps : seen single 0x3000000000 = some (⟨[0, 1, 2, 3, 7], 0, 0⟩, [⟨.ok, 7⟩]) := by decide
theorem test_pop_back_empty : (onWord s1 0x3800000000).map (·.rsp) = some [⟨.empty, 0⟩] := by decide
theorem test_pop_front_keeps_begin : seen full 0x4000000000 = some (⟨[3, 4, 15, 1, 2], 2, 4⟩, [⟨.ok, 4⟩]) := by decide
theorem test_get_across_the_wrap : seen s1 0x5000000002 = some (s1.q0, [⟨.ok, 3⟩]) := by decide
theorem test_get_index_is_not_reduced :
    (onWord s1 0x5000000005).map (fun t => (t.faultCause, t.rsp)) = some (.indexOutOfRange, [⟨.faulted, 2⟩]) := by decide
theorem test_find_third : seen s1 0x6000000003 = some (s1.q0, [⟨.ok, 2⟩]) := by decide
theorem test_find_skips_stale : seen s1 0x6000000000 = some (s1.q0, [⟨.notFound, 0⟩]) := by decide
theorem test_remove_at_shifts : seen s1 0x7000000001 = some (⟨[4, 4, 0, 1, 3], 3, 3⟩, [⟨.ok, 0⟩]) := by decide
theorem test_remove_at_last : seen s1 0x7000000003 = some (⟨[3, 4, 0, 1, 2], 3, 3⟩, [⟨.ok, 0⟩]) := by decide
theorem test_merge_interleaves :
    (onWord pair 0x8400000000).map (fun t => (t.q0, t.q1)) =
      some (⟨[1, 7, 2, 8, 3], 0, 5⟩, ⟨[8, 9, 0, 0, 7], 4, 0⟩) := by decide
theorem test_merge_alias_comes_first :
    (onWord full 0x8000000000).map (fun t => (t.q0, t.rsp)) = some (full.q0, [⟨.faulted, 3⟩]) := by decide
theorem test_copy_to_gives_the_beats :
    (onWord s1 0x9000000000).map (fun t => (t.rsp, t.rd)) = some ([⟨.ok, 4⟩], [1, 2, 3, 4]) := by decide
theorem test_load_keeps_other_slots :
    (nextOf (exec (.load .q0 1) { s1 with wd := [7, 8] })).map (fun t => (t.q0, t.wd)) =
      some (⟨[7, 4, 0, 1, 2], 0, 1⟩, [8]) := by decide
theorem test_load_too_long : (onWord s1 0xA000000006).map (·.rsp) = some [⟨.faulted, 4⟩] := by decide
theorem test_size : seen s1 0xB000000000 = some (s1.q0, [⟨.ok, 4⟩]) := by decide

/-! ### Faults, reset, pins, assembler -/

theorem test_illegal_word_faults :
    (onWord s1 0x5FFFFFFFFF).map (fun t => (t.fault, t.rsp)) = some (true, [⟨.faulted, 1⟩]) := by decide
theorem test_reset_empties :
    (nextOf (step { halted with host := [.reset] })).map (fun t => (t.q0.begin, t.q0.size, t.fault)) =
      some (0, 0, false) := by decide
theorem test_first_instruction_after_reset :
    step (State.reset.withFetchWord 40 0xB000000000) =
      exec (.size .q0) { State.reset.withFetchWord 40 0xB000000000 with host := [] } := rfl
theorem test_status_pins : s1.emptyPins = 0b10 ∧ s1.fullPins = 0b00 ∧ full.fullPins = 0b01 := by decide
theorem test_load_line :
    assembleLine "LOAD q0, [3, 4]".toList = some [{ word := 0xA000000002, beats := [3, 4] }] := by decide
/-- An illegal word followed by a reset: the run ended at the fault (R212). -/
theorem test_fault_then_reset_is_not_safe :
    ({ s1 with host := [.command 0, .reset] } : State).runStatus 2 = .faulted .illegalCommand := by decide
theorem test_safe_run : SafeRun 1 { s1 with host := [.command 0xB000000000] } := by unfold SafeRun; decide
theorem test_load_without_its_beats_is_unfinished :
    ({ s1 with host := [.command 0xA000000002], wd := [8] } : State).runStatus 3 = .unfinished := by decide
theorem test_waiting_load_is_unfinished_at_the_pins :
    PinState.runStatus [({ PinsIn.quiet with cmd := some 0xA000000001 }, 0)] ⟨s1, 0⟩ = .unfinished := by decide

/-! ### Witnesses: values that meet each obligation's hypotheses together -/

theorem witness_ResetStateHoldsResetValues :
    Config.LegalCapacity 1 ∧ Config.LegalCapacity 5 ∧ Config.LegalCapacity 4294967295 := by decide

theorem witness_ResetStateKeepsInvariants : Config.LegalCapacity 1 ∧ Config.LegalCapacity 4294967295 := by decide

/-- A command, a waiting LOAD whose last beat comes, and a reset. -/
theorem witness_StepKeepsInvariants :
    (∃ t, (s1.withFetchWord 40 0x200000000F).Wf ∧ step (s1.withFetchWord 40 0x200000000F) = .next t) ∧
    (∃ t, ({ waiting with wd := [9] } : State).Wf ∧ step { waiting with wd := [9] } = .next t) ∧
    (∃ t, ({ halted with host := [.reset] } : State).Wf ∧ step { halted with host := [.reset] } = .next t) :=
  ⟨⟨_, by decide, rfl⟩, ⟨_, by decide, rfl⟩, ⟨_, by decide, rfl⟩⟩

theorem witness_StepIsTotalWhileRunning :
    (s1.Wf ∧ s1.fault = false) ∧
    (halted.Wf ∧ halted.fault = true ∧ ∀ r, halted.host ≠ .reset :: r) :=
  ⟨by decide, by decide, rfl, fun _ h => nomatch h⟩

theorem witness_CapacityNeverChanges :
    ∃ t, step (tiny.withFetchWord 40 0x3000000000) = .next t := ⟨_, rfl⟩

/-- Both queues full at capacities 1 and 4, where the widths change. -/
theorem witness_RegistersFitTheirWidths :
    tiny.Wf ∧ (rest 4 ⟨[1, 2, 3, 4], 3, 4⟩ ⟨[1, 2, 3, 4], 0, 4⟩).Wf := by decide

theorem witness_DecodeInvertsEncode : (Instr.pushBack .q1 0xFFFFFFFF).wf = true := rfl

theorem witness_EncodeInvertsDecode : decode 0x8C00000000 = some (.merge .q1 .q1) := by decide

theorem witness_OpcodeRowsDecideDecoding :
    rowGet ∈ opcodeTable ∧ rowGet.accepts 0x58FFFFFFFF = true ∧ decode 0x58FFFFFFFF = some (.get .q1 0xFFFFFFFF) ∧
    decode 0x3000000001 = none := by decide

/-- One word for each of the four conditions of R82, and one that meets all of them. -/
theorem witness_IllegalWordsAreRefusedAndFault :
    decode 0xC000000000 = none ∧ decode 0x1200000000 = none ∧ decode 0x9400000000 = none ∧
    decode 0x8400000001 = none ∧ decode 0xFFFFFFFFFF = none := by decide

/-- A command with its operands; a LOAD one beyond the capacity needs none; one at the capacity misses its beats. -/
theorem witness_StepRunsDecodedCommand :
    let s : State := { s1 with host := [.command 0x5000000002, .reset] }
    s.fault = false ∧ s.xact = .idle ∧ s.host = .command 0x5000000002 :: [.reset] ∧
      decode 0x5000000002 = some (.get .q0 2) ∧ s.hasOperands (.get .q0 2) = true ∧
      s.hasOperands (.load .q0 6) = true ∧ s.hasOperands (.load .q0 5) = false := by decide

theorem witness_StepIdlesWithoutCommand : s1.fault = false ∧ s1.xact = .idle ∧ s1.host = [] := by decide

theorem witness_IllegalCommandFaults :
    let s : State := { full with host := [.command 0x3000000001] }
    s.fault = false ∧ s.xact = .idle ∧ s.host = .command 0x3000000001 :: [] ∧ decode 0x3000000001 = none := by decide

theorem witness_HaltedBlockDoesNothing :
    (halted.fault = true ∧ ∀ r, halted.host ≠ .reset :: r) ∧
    (PinState.Wf ⟨halted, 0⟩ ∧ PinState.Wf ⟨{ halted with rsp := [⟨.faulted, 2⟩] }, 3⟩ ∧
      PinsIn.quiet.rst = false) :=
  ⟨⟨rfl, fun _ h => nomatch h⟩, by decide⟩

theorem witness_OnlyResetLeavesTheFault :
    (∃ t, ({ halted with host := [.reset] } : State).fault = true ∧
      step { halted with host := [.reset] } = .next t) ∧
    (∃ p', PinState.Wf ⟨halted, 0⟩ ∧ PinsIn.quiet.rst = false ∧
      PinState.edge PinsIn.quiet 2 ⟨halted, 0⟩ = .next p') :=
  ⟨⟨_, rfl, rfl⟩, ⟨_, by decide, rfl, rfl⟩⟩

/-- From a halted block and from one whose LOAD waits, at both levels; slots 0 and `C - 1`. -/
theorem witness_ResetTakesTheResetState :
    (PinState.Wf ⟨waiting, 0⟩ ∧ PinState.Wf ⟨{ halted with rsp := [⟨.faulted, 2⟩] }, 3⟩ ∧
      ({ PinsIn.quiet with rst := true } : PinsIn).rst = true) ∧
    ({ halted with host := [.reset] } : State).host = .reset :: [] ∧
    ({ waiting with host := [.reset, .reset] } : State).host = .reset :: [.reset] ∧
    0 < halted.capacity ∧ 4 < halted.capacity := by decide

theorem witness_InitEmptiesQueue : full.Wf ∧ s1.Wf ∧ tiny.Wf := by decide

/-- Lengths 0 and C, and one with a beat to spare. -/
theorem witness_LoadReplacesContents :
    (s1.Wf ∧ s1.xact = .idle ∧ (0#32).toNat ≤ s1.capacity ∧ (0#32).toNat ≤ s1.wd.length) ∧
    (let s : State := { s1 with wd := [9, 8, 7, 6, 5] }
     s.Wf ∧ s.xact = .idle ∧ (5#32).toNat ≤ s.capacity ∧ (5#32).toNat ≤ s.wd.length ∧ (4#32).toNat ≤ s.wd.length) := by
  decide

theorem witness_LoadTooLongFaults : s1.capacity < (6#32).toNat ∧ tiny.capacity < (0xFFFFFFFF#32).toNat := by decide

theorem witness_LoadWaitsForItsBeats :
    ((2#32).toNat ≤ s1.capacity ∧ s1.wd.length < (2#32).toNat ∧
      ({ s1 with wd := [8] } : State).wd.length < (2#32).toNat) ∧
    (waiting.Wf ∧ waiting.xact = .loading .q0 2 [8] ∧ (∀ r, waiting.host ≠ .reset :: r) ∧ waiting.wd = []) ∧
    (∃ t, s1.xact = .idle ∧ step { s1 with host := [.command 0xA000000002], wd := [8, 9] } = .next t) :=
  ⟨by decide, ⟨by decide, rfl, (by intro r h; cases h), rfl⟩, _, rfl, rfl⟩

/-- The first piece holds one beat short of the length. -/
theorem witness_LoadInPiecesIsLoadAtOnce :
    s1.fault = false ∧ (∀ r, s1.host ≠ .reset :: r) ∧ (2#32).toNat ≤ s1.capacity ∧ [8#32].length < (2#32).toNat :=
  ⟨rfl, (by intro r h; cases h), by decide, by decide⟩

/-- Full, not full with `begin` above 0, not full with `begin = 0` (both queues), and full at capacity 1. -/
theorem witness_PushBackInsertsAtTheBack :
    (full.Wf ∧ (full.queue .q0).size = full.capacity) ∧
    (s1.Wf ∧ (s1.queue .q0).size ≠ s1.capacity ∧ (s1.queue .q0).begin ≠ 0) ∧
    ((s1.queue .q1).size ≠ s1.capacity ∧ (s1.queue .q1).begin = 0) ∧
    (tiny.Wf ∧ (tiny.queue .q0).size = tiny.capacity) ∧
    s1.seq .q0 = some [1, 2, 3, 4] := by decide

/-- Empty, `begin` at the last slot, and `begin` below it. -/
theorem witness_PopBackTakesTheBack :
    (s1.Wf ∧ (s1.queue .q1).size = 0) ∧
    (single.Wf ∧ (single.queue .q0).size ≠ 0 ∧ (single.queue .q0).begin = single.capacity - 1 ∧
      single.seq .q0 = some [7]) ∧
    ((s1.queue .q0).size ≠ 0 ∧ (s1.queue .q0).begin ≠ s1.capacity - 1) := by decide

/-- Empty, and one element. -/
theorem witness_PopFrontTakesTheFront :
    (s1.Wf ∧ (s1.queue .q1).size = 0) ∧
    (single.Wf ∧ (single.queue .q0).size ≠ 0 ∧ single.seq .q0 = some [7]) := by decide

/-- One slot free, and capacity 1. -/
theorem witness_PushBackThenPopBackRoundTrip :
    (s1.Wf ∧ (s1.queue .q0).size < s1.capacity) ∧ (tiny.Wf ∧ (tiny.queue .q1).size < tiny.capacity) := by decide

/-- One slot free, and an empty queue. -/
theorem witness_NewestAtBackOldestAtFront :
    s1.Wf ∧ s1.seq .q0 = some [1, 2, 3, 4] ∧ [1#32, 2#32, 3#32, 4#32].length < s1.capacity ∧
    s1.seq .q1 = some [] ∧ ([] : List Word).length < s1.capacity := by decide

/-- The last index, the first index past it, and the largest index. -/
theorem witness_GetAnswersTheElement :
    s1.Wf ∧ s1.seq .q0 = some [1, 2, 3, 4] ∧ (3#32).toNat < (s1.queue .q0).size ∧
    ¬ (4#32).toNat < (s1.queue .q0).size ∧ ¬ (0xFFFFFFFF#32).toNat < (s1.queue .q0).size := by decide

/-- A value that is there twice, and one that only a stale slot holds. -/
theorem witness_FindAnswersTheLeastIndex :
    let s := rest 5 ⟨[4, 4, 1, 4, 0], 2, 4⟩ ⟨[7, 7, 7, 7, 7], 0, 0⟩
    s.Wf ∧ s.seq .q0 = some [1, 4, 0, 4] ∧ s1.Wf ∧ s1.seq .q0 = some [1, 2, 3, 4] ∧
    exec (.find .q0 4) s = .next (s.respond .ok 1) ∧ exec (.find .q0 0) s1 = .next (s1.respond .notFound 0) :=
  ⟨by decide, by decide, by decide, by decide, rfl, rfl⟩

/-- Indices 0, `size - 1` and `size`. -/
theorem witness_RemoveAtClosesTheGap :
    s1.Wf ∧ (0#32).toNat < (s1.queue .q0).size ∧ (3#32).toNat < (s1.queue .q0).size ∧
    ¬ (4#32).toNat < (s1.queue .q0).size ∧ s1.seq .q0 = some [1, 2, 3, 4] := by decide

/-- The sum equal to C, and both empty. -/
theorem witness_MergeInterleavesTheQueues :
    (pair.Wf ∧ QueueId.q0 ≠ .q1 ∧ pair.seq .q0 = some [1, 2, 3] ∧ pair.seq .q1 = some [7, 8] ∧
      [1#32, 2#32, 3#32].length + [7#32, 8#32].length ≤ pair.capacity) ∧
    (let s := rest 1 ⟨[5], 0, 0⟩ ⟨[6], 0, 0⟩
     s.Wf ∧ s.seq .q0 = some [] ∧ s.seq .q1 = some []) := by decide

/-- One element too many. -/
theorem witness_MergeOverCapacityIsAStatus :
    let s := rest 5 ⟨[1, 2, 3, 4, 5], 0, 5⟩ ⟨[6, 0, 0, 0, 0], 0, 1⟩
    QueueId.q1 ≠ .q0 ∧ s.capacity < (s.queue .q1).size + (s.queue .q0).size := by decide

/-- The last interleaved position, then the first and the last of either tail. -/
theorem witness_ZipperClosedForm :
    (zipper [1, 3, 5, 6] [2, 4])[3]? = some 4 ∧ (zipper [1, 3, 5, 6] [2, 4])[4]? = some 5 ∧
    (zipper [1, 3, 5, 6] [2, 4])[5]? = some 6 ∧ (zipper [1] [2, 3, 4])[2]? = some 3 ∧
    (zipper [1] [2, 3, 4])[3]? = some 4 := by decide

/-- A wrapped queue and an empty one. -/
theorem witness_CopyToGivesTheSequence :
    s1.Wf ∧ s1.seq .q0 = some [1, 2, 3, 4] ∧ s1.seq .q1 = some [] := by decide

theorem witness_GetsReproduceCopyTo : full.Wf ∧ full.seq .q0 = some [15, 1, 2, 3, 4] := by decide

theorem witness_SizeAnswersTheSize : s1.Wf ∧ full.Wf ∧ tiny.Wf := by decide

/-- A command that answers, and a LOAD that waits. -/
theorem witness_StatusesByCommand :
    (∃ t, exec (.merge .q0 .q0) s1 = .next t) ∧
    (∃ t, exec (.load .q0 2) s1 = .next t ∧ t.rsp = s1.rsp ∧ t.xact = .loading .q0 2 []) :=
  ⟨⟨_, rfl⟩, ⟨_, rfl, rfl, rfl⟩⟩

/-- An answer FAULTED and an answer that is a status. -/
theorem witness_NonOkAnswersChangeNothing :
    (∃ t, exec (.get .q0 4) s1 = .next t ∧ t.rsp = s1.rsp ++ [⟨.faulted, 2⟩] ∧ Status.faulted ≠ .ok) ∧
    (∃ t, exec (.pushBack .q0 1) full = .next t ∧ t.rsp = full.rsp ++ [⟨.capacityExceeded, 0⟩] ∧
      Status.capacityExceeded ≠ .ok) :=
  ⟨⟨_, rfl, rfl, by decide⟩, ⟨_, rfl, rfl, by decide⟩⟩

theorem witness_OtherQueueIsUntouched :
    (∃ t, exec (.merge .q0 .q1) pair = .next t ∧ QueueId.q0 ≠ .q1) ∧ (∃ t, exec (.popBack .q1) pair = .next t) :=
  ⟨⟨_, rfl, by decide⟩, ⟨_, rfl⟩⟩

/-- A read that answers OK, one that faults, and a pop. -/
theorem witness_ReadsHaveNoSideEffects :
    (∃ t, exec (.copyTo .q0) s1 = .next t) ∧ (∃ t, exec (.get .q0 4) s1 = .next t) ∧
    (∃ t, exec (.popFront .q0) s1 = .next t) :=
  ⟨⟨_, rfl⟩, ⟨_, rfl⟩, ⟨_, rfl⟩⟩

/-- Each of the four commands with its effect; END_PTR 0 (from `single`) and above 0 (from S1). -/
theorem witness_EndPointerMoves :
    (s1.Wf ∧ ∃ t, exec (.pushBack .q0 9) s1 = .next t) ∧ (∃ t, exec (.popBack .q0) s1 = .next t) ∧
    (single.Wf ∧ (single.queue .q0).endPtr 5 = 0 ∧
      ∃ t, exec (.popFront .q0) single = .next t ∧ t.queue .q0 ≠ single.queue .q0) ∧
    ((s1.queue .q0).endPtr 5 = 2 ∧ ∃ t, exec (.removeAt .q0 0) s1 = .next t ∧ t.queue .q0 ≠ s1.queue .q0) :=
  ⟨⟨by decide, _, rfl⟩, ⟨_, rfl⟩, ⟨by decide, by decide, _, rfl, by decide⟩, ⟨by decide, _, rfl, by decide⟩⟩

/-- Capacity 1, and the two ends of the range at capacity 5, below and at the wrap. -/
theorem witness_IndexArithmeticForms :
    (1 ≤ 1 ∧ 0 < 1) ∧ (1 ≤ 5 ∧ 0 < 5 ∧ 4 < 5) ∧ (s1.q0.begin < 5 ∧ 1 < 5 ∧ ¬ 5 ≤ s1.q0.begin + 1) ∧
    (2 < 5 ∧ 5 ≤ s1.q0.begin + 2) := by decide

/-- Empty, full, neither; and capacity 1. -/
theorem witness_StatusPinsFollowSize :
    s1.Wf ∧ (s1.queue .q1).size = 0 ∧ full.Wf ∧ (full.queue .q0).size = full.capacity ∧ tiny.Wf := by decide

/-- A command that is no LOAD, and a LOAD with its beats. -/
theorem witness_ExecRefinesListMachine :
    (s1.Wf ∧ s1.seq .q0 = some [1, 2, 3, 4] ∧ s1.seq .q1 = some [] ∧
      ∀ q length, Instr.removeAt .q0 1 = .load q length → length.toNat ≤ s1.capacity → length.toNat ≤ s1.wd.length) ∧
    (let s : State := { s1 with wd := [9, 8] }
     s.Wf ∧ s.seq .q0 = some [1, 2, 3, 4] ∧ s.seq .q1 = some [] ∧
      ∀ q length, Instr.load .q1 2 = .load q length → length.toNat ≤ s.capacity → length.toNat ≤ s.wd.length) :=
  ⟨⟨by decide, by decide, by decide, fun _ _ h => nomatch h⟩,
   by decide, by decide, by decide, fun _ _ h _ => by cases h; decide⟩

/-- Two layouts of the same sequences: different `begin`, different stale slots. -/
theorem witness_PhysicalLayoutIsInvisible :
    let s := rest 5 ⟨[1, 2, 3, 4, 9], 0, 4⟩ ⟨[0, 0, 0, 0, 0], 2, 0⟩
    s1.Wf ∧ s.Wf ∧ s1.capacity = s.capacity ∧ s1.wd = s.wd ∧ s1.fault = s.fault ∧ s1.faultCause = s.faultCause ∧
    s1.rsp = s.rsp ∧ s1.rd = s.rd ∧ s1.seq .q0 = s.seq .q0 ∧ s1.seq .q1 = s.seq .q1 ∧ (s1.fault = false ∧ s1.xact = .idle ∧ s.xact = .idle) ∧
    s1 ≠ s := by
  refine ⟨by decide, by decide, by decide, by decide, by decide, by decide, by decide, by decide, by decide, by decide, by decide, ?_⟩
  exact fun h => absurd (congrArg (fun x : State => x.q0.begin) h) (by decide)

/-- The block at the pins, ready for a command. -/
def ready : PinState := ⟨s1, 0⟩
/-- The block taking the beats of a LOAD. -/
def wantsBeat : PinState := ⟨waiting, 0⟩
/-- The block offering a response, with COPY_TO beats to follow. -/
def offersResponse : PinState := ⟨{ s1 with rsp := [⟨.ok, 2⟩], rd := [1, 2] }, 0⟩
/-- The block offering a COPY_TO beat. -/
def offersBeat : PinState := ⟨{ s1 with rd := [1, 2] }, 0⟩
/-- The block computing. -/
def computing : PinState := ⟨{ s1 with rsp := [⟨.ok, 0⟩] }, 2⟩

theorem witness_EdgeKeepsInvariants :
    (∃ p', ready.Wf ∧ ready.edge { PinsIn.quiet with cmd := some 0x9000000000 } 2 = .next p') ∧
    (∃ p', wantsBeat.Wf ∧ wantsBeat.edge { PinsIn.quiet with wd := some 9 } 0 = .next p') ∧
    (∃ p', offersResponse.Wf ∧ offersResponse.edge { PinsIn.quiet with rspReady := true } 0 = .next p') ∧
    (∃ p', offersBeat.Wf ∧ offersBeat.edge { PinsIn.quiet with rdReady := true } 0 = .next p') ∧
    (∃ p', computing.Wf ∧ computing.edge { PinsIn.quiet with rst := true } 0 = .next p') :=
  ⟨⟨_, by decide, rfl⟩, ⟨_, by decide, rfl⟩, ⟨_, by decide, rfl⟩, ⟨_, by decide, rfl⟩, ⟨_, by decide, rfl⟩⟩

theorem witness_OneChannelAtATime :
    (ready.Wf ∧ (ready.pins false).cmdReady = true) ∧ (wantsBeat.Wf ∧ (wantsBeat.pins false).wdReady = true) ∧
    (offersResponse.Wf ∧ (offersResponse.pins false).rsp ≠ none) ∧
    (offersBeat.Wf ∧ (offersBeat.pins false).rd ≠ none) :=
  ⟨by decide, by decide, by decide, by decide⟩

theorem witness_OffersWaitForTheHost :
    PinsIn.quiet.rst = false ∧
    (offersResponse.Wf ∧ (offersResponse.pins false).rsp ≠ none ∧ PinsIn.quiet.rspReady = false) ∧
    (offersBeat.Wf ∧ (offersBeat.pins false).rd ≠ none ∧ PinsIn.quiet.rdReady = false) ∧
    (wantsBeat.Wf ∧ (wantsBeat.pins false).wdReady = true ∧ PinsIn.quiet.wd = none) ∧
    (ready.Wf ∧ (ready.pins false).cmdReady = true ∧ PinsIn.quiet.cmd = none) :=
  ⟨by decide, by decide, by decide, by decide, by decide⟩

/-- A queue with elements and an empty one. -/
theorem witness_CopyToTransport :
    ready.Wf ∧ (ready.pins false).cmdReady = true ∧ ready.block.seq .q0 = some [1, 2, 3, 4] ∧
    ready.block.seq .q1 = some [] ∧ ([2, 0, 1, 3] : List Nat).length ≤ [1#32, 2, 3, 4].length := by decide

/-- Lengths C and 0. -/
theorem witness_PinLevelLoadIsTheTransaction :
    ready.Wf ∧ (ready.pins false).cmdReady = true ∧ (5#32).toNat ≤ ready.block.capacity ∧
    ([(9, 0), (8, 1), (7, 0), (6, 2), (5, 3)] : List (Word × Nat)).length = (5#32).toNat ∧
    ([] : List (Word × Nat)).length = (0#32).toNat := by decide

/-- Legal words that answer OK, that wait and that fault, an illegal word, and a pace of two cycles. -/
theorem witness_CommandsAtThePins :
    ready.Wf ∧ (ready.pins false).cmdReady = true ∧
    (∀ w ∈ [0x200000000F#40, 0xA000000002#40, 0x5000000004#40, 0x0000000000#40],
      ({ PinsIn.quiet with cmd := some w } : PinsIn).rst = false ∧
      ({ PinsIn.quiet with cmd := some w } : PinsIn).cmd = some w) ∧
    (∀ j ∈ [(PinsIn.quiet, 0), (PinsIn.quiet, 0)], j.1.rst = false) ∧
    ({ PinsIn.quiet with rspReady := true } : PinsIn).rspReady = true :=
  ⟨by decide, by decide, fun _ _ => ⟨rfl, rfl⟩, by decide, rfl⟩

/-- A host that gives every handshake, and a block with two cycles to compute. -/
theorem witness_TransactionsTakeFinitelyManyCycles :
    let env : Nat → PinsIn × Nat := fun k => (⟨false, none, some 9, true, true⟩, k)
    computing.Wf ∧ wantsBeat.Wf ∧ (∀ j ∈ [(PinsIn.quiet, 0), (PinsIn.quiet, 7)], j.1.rst = false) ∧
    [(PinsIn.quiet, 0), (PinsIn.quiet, 7)].length ≤ computing.working ∧
    ∀ k, (env k).1.rst = false ∧ (env k).1.cmd = none ∧ (env k).1.wd ≠ none ∧ (env k).1.rspReady = true ∧
      (env k).1.rdReady = true :=
  ⟨by decide, by decide, by decide, by decide, fun _ => ⟨rfl, rfl, nofun, rfl, rfl⟩⟩

/-- An illegal word and then a reset, at the transaction level and at the pins; runs that have not ended, with a LOAD that
misses its beats and with the host's list not exhausted, and at the pins with a LOAD that waits and while the block
computes; and safe runs. -/
theorem witness_RunsThatFaultEndBadly :
    (∃ t, Sys2Proof.core.run 1 ({ s1 with host := [.command 0, .reset] } : State) = .next t ∧ t.fault = true ∧ 1 ≤ 2) ∧
    ((∀ j, j ≤ 0 → ∃ u, Sys2Proof.core.run j waiting = .next u ∧ u.fault = false) ∧
      Sys2Proof.core.run 0 waiting = .next waiting ∧ waiting.xact ≠ .idle) ∧
    (let s : State := { s1 with host := [.command 0xB000000000] }
     (∀ j, j ≤ 0 → ∃ u, Sys2Proof.core.run j s = .next u ∧ u.fault = false) ∧
      Sys2Proof.core.run 0 s = .next s ∧ s.host ≠ []) ∧
    SafeRun 1 { s1 with host := [.command 0xB000000000] } ∧
    (∃ p', ready.feed [({ PinsIn.quiet with cmd := some 0 }, 1)] = .next p' ∧ p'.block.fault = true) ∧
    ((∀ n, n ≤ [(PinsIn.quiet, 0)].length → ∃ u, wantsBeat.feed ([(PinsIn.quiet, 0)].take n) = .next u ∧
      u.block.fault = false) ∧ wantsBeat.feed [(PinsIn.quiet, 0)] = .next wantsBeat ∧
      wantsBeat.block.inTransaction = true) ∧
    ((∀ n, n ≤ ([] : List (PinsIn × Nat)).length → ∃ u, computing.feed (([] : List (PinsIn × Nat)).take n) = .next u ∧
      u.block.fault = false) ∧ computing.feed [] = .next computing ∧ computing.working ≠ 0) ∧
    (∃ p', ready.feed [(PinsIn.quiet, 1)] = .next p' ∧ SafePinRun [(PinsIn.quiet, 1)] ready) := by
  refine ⟨⟨_, rfl, rfl, by decide⟩, ⟨?_, rfl, by decide⟩, ⟨?_, rfl, by decide⟩, test_safe_run, ⟨_, rfl, rfl⟩,
    ⟨?_, rfl, by decide⟩, ⟨?_, rfl, by decide⟩, ⟨_, rfl, by unfold SafePinRun; decide⟩⟩
  · intro j hj; obtain rfl := Nat.le_zero.mp hj; exact ⟨_, rfl, rfl⟩
  · intro j hj; obtain rfl := Nat.le_zero.mp hj; exact ⟨_, rfl, rfl⟩
  · intro n hn
    match n, hn with
    | 0, _ => exact ⟨_, rfl, rfl⟩
    | 1, _ => exact ⟨_, rfl, rfl⟩
  · intro n hn; obtain rfl := Nat.le_zero.mp hn; exact ⟨_, rfl, rfl⟩

end Sys2Proof.Tests
end

/-! The scope of the block (00_scope.md): every command has an outcome while FAULT = 0 (R10), a command answered by anything
but OK changes no queue (R9), the capacity is fixed (R7), and the registers hold what the model holds (R6). -/

namespace Sys2Proof.Machine

/-! ### Totality of the commands on well-formed states -/

/-- A command goes on past storage accesses that all had their slot. -/
theorem orSlotFault_total {α : Type} (r : Option α) (k : α → Host.Outcome State Fault Refusal)
    (hr : ∃ a, r = some a) (hk : ∀ a, r = some a → ∃ t, k a = .next t) : ∃ t, orSlotFault r k = .next t := by
  obtain ⟨a, rfl⟩ := hr
  exact hk a rfl

theorem storage_length (s : State) (hs : s.Wf) (q : QueueId) : (s.queue q).storage.length = s.capacity :=
  (memory_wf_iff _ _).1 (queue_wf s hs q).1

/-- A slot below `C` can be read. -/
theorem read_total (s : State) (hs : s.Wf) (q : QueueId) (p : Nat) (hp : p < s.capacity) :
    ∃ v, Memory.read (s.queue q).storage p = some v :=
  ⟨_, read_eq_some_of_lt _ p (storage_length s hs q ▸ hp)⟩

theorem execPushBack_total (q : QueueId) (v : Word) (s : State) (hs : s.Wf) : ∃ t, execPushBack q v s = .next t := by
  simp only [execPushBack]
  split
  · exact ⟨_, rfl⟩
  · have hb : stepDown s.capacity (s.queue q).begin < (s.queue q).storage.length := by
      rw [storage_length s hs q]
      exact Nat.mod_lt _ (wf_capacity_pos s hs)
    exact orSlotFault_total _ _ ⟨_, write_of_lt _ _ v hb⟩ fun _ _ => ⟨_, rfl⟩

theorem execPopBack_total (q : QueueId) (s : State) (hs : s.Wf) : ∃ t, execPopBack q s = .next t := by
  simp only [execPopBack]
  split
  · exact ⟨_, rfl⟩
  · obtain ⟨_, hb, _⟩ := queue_wf s hs q
    exact orSlotFault_total _ _ (read_total s hs q _ hb) fun _ _ => ⟨_, rfl⟩

theorem execPopFront_total (q : QueueId) (s : State) (hs : s.Wf) : ∃ t, execPopFront q s = .next t := by
  simp only [execPopFront]
  split
  · exact ⟨_, rfl⟩
  · have hp : (s.queue q).frontPtr s.capacity < s.capacity := Nat.mod_lt _ (wf_capacity_pos s hs)
    exact orSlotFault_total _ _ (read_total s hs q _ hp) fun _ _ => ⟨_, rfl⟩

theorem execGet_total (q : QueueId) (index : Word) (s : State) (hs : s.Wf) : ∃ t, execGet q index s = .next t := by
  simp only [execGet]
  split
  · exact orSlotFault_total _ _ (elem_isSome _ _ _ (wf_capacity_pos s hs) (queue_wf s hs q)) fun _ _ => ⟨_, rfl⟩
  · exact ⟨_, rfl⟩

theorem execFind_total (q : QueueId) (v : Word) (s : State) (hs : s.Wf) : ∃ t, execFind q v s = .next t := by
  unfold execFind
  refine orSlotFault_total _ _ (scan_isSome _ _ v (wf_capacity_pos s hs) (queue_wf s hs q) _ _) fun found _ => ?_
  cases found with
  | none => exact ⟨_, rfl⟩
  | some k => exact ⟨_, rfl⟩

theorem execRemoveAt_total (q : QueueId) (index : Word) (s : State) (hs : s.Wf) :
    ∃ t, execRemoveAt q index s = .next t := by
  simp only [execRemoveAt]
  split
  next hi =>
    have hi : index.toNat < (s.queue q).size := by simpa [Queue.hasIndex] using hi
    have hQ := queue_wf s hs q
    obtain ⟨Q', hshift, _⟩ := shift_of_wf s.capacity ((s.queue q).size - 1 - index.toNat) index.toNat (s.queue q) hQ
      (by have := hQ.2.2; omega)
    exact orSlotFault_total _ _ ⟨Q', hshift⟩ fun _ _ => ⟨_, rfl⟩
  next => exact ⟨_, rfl⟩

/-- Within the capacity the zipper of the two sequences has a slot for every value (43_merge.md R162, R164). -/
theorem execMerge_total (d src : QueueId) (s : State) (hs : s.Wf) : ∃ t, execMerge d src s = .next t := by
  have hC := wf_capacity_pos s hs
  simp only [execMerge]
  split
  · exact ⟨_, rfl⟩
  · split
    · exact ⟨_, rfl⟩
    · refine orSlotFault_total _ _ (seq_isSome _ _ hC (queue_wf s hs d)) fun A hA => ?_
      refine orSlotFault_total _ _ (seq_isSome _ _ hC (queue_wf s hs src)) fun B hB => ?_
      have hlA := ((seq_eq_some_iff _ _ A).1 hA).1
      have hlB := ((seq_eq_some_iff _ _ B).1 hB).1
      have hfits : 0 + (zipper A B).length ≤ (s.queue d).storage.length := by
        rw [storage_length s hs d, zipper_length]
        omega
      exact orSlotFault_total _ _ (writeRun_of_fits _ _ _ hfits) fun _ _ => ⟨_, rfl⟩

theorem execCopyTo_total (q : QueueId) (s : State) (hs : s.Wf) : ∃ t, execCopyTo q s = .next t := by
  unfold execCopyTo
  exact orSlotFault_total _ _ (seq_isSome _ _ (wf_capacity_pos s hs) (queue_wf s hs q)) fun _ _ => ⟨_, rfl⟩

/-- A LOAD of legal length either has all its beats or waits (40_construct.md R106). -/
theorem takeBeats_total (q : QueueId) (n : Nat) (taken : List Word) (s : State) (hs : s.Wf) (hn : n ≤ s.capacity)
    (ht : taken.length ≤ n) : ∃ t, s.takeBeats q n taken = .next t := by
  by_cases hw : n ≤ taken.length + s.wd.length
  · obtain ⟨_, _, h⟩ := takeBeats_of_enough q n taken s hs hn ht hw
    exact ⟨_, h⟩
  · exact ⟨_, takeBeats_of_missing q n taken s (by omega)⟩

theorem execLoad_total (q : QueueId) (length : Word) (s : State) (hs : s.Wf) : ∃ t, execLoad q length s = .next t := by
  unfold execLoad
  split
  · exact ⟨_, rfl⟩
  · exact takeBeats_total q length.toNat [] s hs (by omega) (Nat.zero_le _)

/-- Every command has an outcome in a well-formed state (00_scope.md R10): no storage access is out of range. -/
theorem exec_total (i : Instr) (s : State) (hs : s.Wf) : ∃ t, exec i s = .next t := by
  cases i with
  | init q => exact ⟨_, rfl⟩
  | pushBack q v => exact execPushBack_total q v s hs
  | popBack q => exact execPopBack_total q s hs
  | popFront q => exact execPopFront_total q s hs
  | get q index => exact execGet_total q index s hs
  | find q v => exact execFind_total q v s hs
  | removeAt q index => exact execRemoveAt_total q index s hs
  | merge d src => exact execMerge_total d src s hs
  | copyTo q => exact execCopyTo_total q s hs
  | load q length => exact execLoad_total q length s hs
  | size q => exact ⟨_, rfl⟩

/-- An illegal word is a fault, which is an outcome; a legal one runs its command (60_exceptions.md R206, R214). -/
theorem accept_total (w : CommandWord) (s : State) (hs : s.Wf) : ∃ t, s.accept w = .next t := by
  unfold State.accept
  split
  · exact ⟨_, rfl⟩
  · exact exec_total _ s hs

/-- A waiting LOAD of a well-formed state has passed its length check and misses a beat (40_construct.md R105, R106). -/
theorem loading_wf (s : State) (hs : s.Wf) (q : QueueId) (n : Nat) (taken : List Word)
    (hx : s.xact = .loading q n taken) : n ≤ s.capacity ∧ taken.length < n := by
  obtain ⟨_, _, _, _, hxact⟩ := hs
  rw [hx] at hxact
  simp only [Transaction.wf, Bool.and_eq_true, decide_eq_true_eq] at hxact
  exact hxact.1

theorem step_total_of_running (s : State) (hs : s.Wf) (hf : s.fault = false) : ∃ t, step s = .next t := by
  obtain ⟨_, _, h⟩ | ⟨_, hf', _⟩ | ⟨_, _, hrun⟩ := step_eq s
  · exact ⟨_, h⟩
  · simp [hf] at hf'
  · obtain ⟨q, n, taken, hx, h⟩ | ⟨_, w, rest, _, _, h⟩ | ⟨_, _, _, _, _, h⟩ | ⟨_, _, h⟩ := hrun
    · obtain ⟨hn, ht⟩ := loading_wf s hs q n taken hx
      rw [h]
      exact takeBeats_total q n taken s hs hn ht.le
    · rw [h]
      exact accept_total w { s with host := rest } hs
    · exact ⟨_, h⟩
    · exact ⟨_, h⟩

/-- A halted block to which no reset is applied has no step (60_exceptions.md R212). -/
theorem step_eq_halted (s : State) (hf : s.fault = true) (hr : ∀ rest, s.host ≠ .reset :: rest) :
    step s = .fault (.halted s.faultCause) := by
  obtain ⟨rest, hh, _⟩ | ⟨_, _, h⟩ | ⟨_, hf', _⟩ := step_eq s
  · exact absurd hh (hr rest)
  · exact h
  · simp [hf] at hf'

/-! ### How a command can be answered -/

/-- The four ways a command that answers `t` from `s` can have ended: fault entry, a refusal by status, success, or no
response yet (60_exceptions.md R200 to R202). In the first two `t` is known outright. -/
inductive AnswersBy (s t : State) : Prop where
  | raised (c : Cause) (hc : c ≠ .none) (ht : t = s.raise c)
  | declined (status : Status) (hok : status ≠ .ok) (hfaulted : status ≠ .faulted) (ht : t = s.respond status 0)
  | done (data : Word) (hrsp : t.rsp = s.rsp ++ [{ status := .ok, data := data }]) (hcap : t.capacity = s.capacity)
  | waits (hrsp : t.rsp = s.rsp) (hcap : t.capacity = s.capacity)

/-- Every command ends in one of the four ways. -/
theorem exec_answersBy (i : Instr) (s t : State) (h : exec i s = .next t) : AnswersBy s t := by
  cases i with
  | init q =>
    obtain rfl := execInit_cases q s t h
    exact .done 0 (by simp) (by simp)
  | pushBack q v =>
    obtain ⟨_, rfl⟩ | ⟨_, m, _, rfl⟩ := execPushBack_cases q v s t h
    · exact .declined .capacityExceeded (by decide) (by decide) rfl
    · exact .done 0 (by simp) (by simp)
  | popBack q =>
    obtain ⟨_, rfl⟩ | ⟨_, v, _, rfl⟩ := execPopBack_cases q s t h
    · exact .declined .empty (by decide) (by decide) rfl
    · exact .done v (by simp) (by simp)
  | popFront q =>
    obtain ⟨_, rfl⟩ | ⟨_, v, _, rfl⟩ := execPopFront_cases q s t h
    · exact .declined .empty (by decide) (by decide) rfl
    · exact .done v (by simp) (by simp)
  | get q index =>
    obtain ⟨_, v, _, rfl⟩ | ⟨_, rfl⟩ := execGet_cases q index s t h
    · exact .done v rfl rfl
    · exact .raised .indexOutOfRange (by decide) rfl
  | find q v =>
    obtain ⟨k, _, rfl⟩ | ⟨_, rfl⟩ := execFind_cases q v s t h
    · exact .done (BitVec.ofNat 32 k) rfl rfl
    · exact .declined .notFound (by decide) (by decide) rfl
  | removeAt q index =>
    obtain ⟨_, Q', _, rfl⟩ | ⟨_, rfl⟩ := execRemoveAt_cases q index s t h
    · exact .done 0 (by simp) (by simp)
    · exact .raised .indexOutOfRange (by decide) rfl
  | merge d src =>
    obtain ⟨_, rfl⟩ | ⟨_, _, rfl⟩ | ⟨_, _, A, B, m, _, _, _, rfl⟩ := execMerge_cases d src s t h
    · exact .raised .mergeAlias (by decide) rfl
    · exact .declined .wouldExceedCapacity (by decide) (by decide) rfl
    · exact .done 0 (by simp) (by simp)
  | copyTo q =>
    obtain ⟨A, _, rfl⟩ := execCopyTo_cases q s t h
    exact .done (BitVec.ofNat 32 (s.queue q).size) rfl rfl
  | load q n =>
    obtain ⟨_, rfl⟩ | ⟨_, _, rfl⟩ | ⟨_, _, m, _, rfl⟩ := execLoad_cases q n s t h
    · exact .raised .loadLength (by decide) rfl
    · exact .waits rfl rfl
    · exact .done 0 (by simp) (by simp)
  | size q =>
    obtain rfl := execSize_cases q s t h
    exact .done (BitVec.ofNat 32 (s.queue q).size) rfl rfl

/-! ### The capacity is fixed -/

theorem AnswersBy.capacity_eq {s t : State} (h : AnswersBy s t) : t.capacity = s.capacity := by
  cases h with
  | raised c _ ht => rw [ht, raise_capacity]
  | declined status _ _ ht => rw [ht, respond_capacity]
  | done _ _ hcap => exact hcap
  | waits _ hcap => exact hcap

theorem takeBeats_capacity (q : QueueId) (n : Nat) (taken : List Word) (s t : State)
    (h : s.takeBeats q n taken = .next t) : t.capacity = s.capacity := by
  unfold State.takeBeats at h
  simp only at h
  split at h
  · cases h
    rfl
  · obtain ⟨m, _, hm⟩ := orSlotFault_eq_next _ _ _ h
    cases hm
    simp

theorem accept_capacity (w : CommandWord) (s t : State) (h : s.accept w = .next t) : t.capacity = s.capacity := by
  unfold State.accept at h
  split at h
  · cases h
    rfl
  · exact (exec_answersBy _ s t h).capacity_eq

theorem step_capacity (s t : State) (h : step s = .next t) : t.capacity = s.capacity := by
  obtain ⟨_, _, hs⟩ | ⟨_, _, hs⟩ | ⟨_, _, hrun⟩ := step_eq s
  · cases hs.symm.trans h
    rfl
  · cases hs.symm.trans h
  · obtain ⟨q, n, taken, _, hs⟩ | ⟨_, w, rest, _, _, hs⟩ | ⟨_, _, _, _, _, hs⟩ | ⟨_, _, hs⟩ := hrun
    · exact takeBeats_capacity q n taken s t (hs.symm.trans h)
    · exact accept_capacity w { s with host := rest } t (hs.symm.trans h)
    · cases hs.symm.trans h
      rfl
    · cases hs.symm.trans h
      rfl

/-! ### The widths of the registers -/

theorem lt_two_pow_beginWidth (C b : Nat) (hb : b < C) : b < 2 ^ Config.beginWidth C :=
  calc b < C := hb
    _ ≤ 2 ^ Nat.clog 2 C := Nat.le_pow_clog Nat.one_lt_two C
    _ ≤ 2 ^ Config.beginWidth C := Nat.pow_le_pow_right Nat.two_pos (Nat.le_max_right 1 _)

theorem lt_two_pow_sizeWidth (C n : Nat) (hn : n ≤ C) : n < 2 ^ Config.sizeWidth C :=
  calc n < C + 1 := Nat.lt_succ_of_le hn
    _ ≤ 2 ^ Config.sizeWidth C := Nat.le_pow_clog Nat.one_lt_two (C + 1)

/-- A count up to a legal capacity is not cut by a DATA field (44_inspect.md R184). -/
theorem toNat_ofNat_of_le_capacity (C n : Nat) (hC : Config.LegalCapacity C) (hn : n ≤ C) :
    (BitVec.ofNat 32 n).toNat = n := by
  have hmax : n ≤ 4294967295 := hn.trans hC.2
  rw [BitVec.toNat_ofNat]
  exact Nat.mod_eq_of_lt (by omega)

/-! ### The obligations -/

/-- Settles O4: in a well-formed state no storage access is out of range, so every command answers; the halt is the only
other way to have no next state. -/
theorem stepIsTotalWhileRunning : Obligations.StepIsTotalWhileRunning := by
  intro s hs
  refine ⟨fun hf => ⟨fun w => accept_total w s hs, step_total_of_running s hs hf⟩, fun hf hr t ht => ?_⟩
  rw [step_eq_halted s hf hr] at ht
  cases ht

/-- Settles O5, over the kinds of step. -/
theorem capacityNeverChanges : Obligations.CapacityNeverChanges :=
  ⟨step_capacity, fun h => absurd h.1 (by decide)⟩

/-- Settles O6, from the bounds of 10_state.md R24. -/
theorem registersFitTheirWidths : Obligations.RegistersFitTheirWidths := by
  intro s q hs
  obtain ⟨_, hbegin, hsize⟩ := queue_wf s hs q
  exact ⟨lt_two_pow_beginWidth _ _ hbegin, lt_two_pow_sizeWidth _ _ hsize, toNat_ofNat_of_le_capacity _ _ hs.1 hsize⟩

/-- Settles O43: of the four ways a command can end, only the first two give a response that is not OK, and each says
outright what the next state is. -/
theorem nonOkAnswersChangeNothing : Obligations.NonOkAnswersChangeNothing := by
  intro i s t r h hr hne
  cases exec_answersBy i s t h with
  | raised c hc ht =>
    subst ht
    obtain rfl : _ = r := by simpa using hr
    exact .inl ⟨rfl, c, hc, rfl⟩
  | declined status _ hfaulted ht =>
    subst ht
    obtain rfl : _ = r := by simpa using hr
    exact .inr ⟨hfaulted, rfl⟩
  | done data hrsp _ =>
    obtain rfl : _ = r := by simpa using hrsp.symm.trans hr
    exact absurd rfl hne
  | waits hrsp _ => simp [hrsp] at hr

end Sys2Proof.Machine

/-! The state of the block (10_state.md): its reset values (R38), the invariants that every step keeps (R24, R32), the
status pins (R34), the end pointer (R29), and the abstract machine on the two logical sequences, which every command
follows (R39). -/

namespace Sys2Proof.Machine

/-! ### Reset -/

/-- A slot after a reset: unspecified below `C`, none from `C` on. -/
theorem read_unspecifiedStorage (C k n p : Nat) :
    Memory.read (unspecifiedStorage C k n) p = if p < C then some (Config.storageInit k n p) else none := by
  unfold Memory.read unspecifiedStorage
  split <;> simp [*]

theorem resetQueue_wf (C k : Nat) (q : QueueId) (hC : 0 < C) : (resetQueue C k q).Wf C :=
  ⟨resetQueue_storage_wf C k q, hC, Nat.zero_le C⟩

theorem resetWith_wf (C : Nat) (hC : Config.LegalCapacity C) : (State.resetWith C).Wf :=
  ⟨hC, resetQueue_wf C 0 .q0 hC.1, resetQueue_wf C 0 .q1 hC.1, iff_of_true rfl rfl, rfl⟩

/-! ### The status pins -/

/-- Bit `q` of a pair of status pins is the flag of queue `q` (30_encoding.md R70). -/
theorem pinPair_getLsbD (flag : QueueId → Bool) (q : QueueId) :
    (BitVec.ofBool (flag .q1) ++ BitVec.ofBool (flag .q0)).getLsbD q.number = flag q := by
  have hbits : ∀ a b : Bool, (BitVec.ofBool b ++ BitVec.ofBool a).getLsbD 0 = a ∧
      (BitVec.ofBool b ++ BitVec.ofBool a).getLsbD 1 = b := by decide
  cases q
  · exact (hbits (flag .q0) (flag .q1)).1
  · exact (hbits (flag .q0) (flag .q1)).2

/-- Two pairs of status pins with no flag in common. -/
theorem pinPair_and_eq_zero : ∀ a0 a1 b0 b1 : Bool, (a0 && b0) = false → (a1 && b1) = false →
    (BitVec.ofBool a1 ++ BitVec.ofBool a0) &&& (BitVec.ofBool b1 ++ BitVec.ofBool b0) = 0#2 := by
  decide

theorem emptyPins_getLsbD (s : State) (q : QueueId) : s.emptyPins.getLsbD q.number = (s.queue q).isEmpty :=
  pinPair_getLsbD (fun r => (s.queue r).isEmpty) q

theorem fullPins_getLsbD (s : State) (q : QueueId) :
    s.fullPins.getLsbD q.number = (s.queue q).isFull s.capacity :=
  pinPair_getLsbD (fun r => (s.queue r).isFull s.capacity) q

/-- With a capacity above 0 no queue is both empty and full. -/
theorem isEmpty_and_isFull (C : Nat) (Q : Queue) (hC : 0 < C) : (Q.isEmpty && Q.isFull C) = false := by
  simp only [Queue.isEmpty, Queue.isFull, Bool.and_eq_false_iff, beq_eq_false_iff_ne]
  omega

/-! ### Pointer arithmetic modulo `C` -/

theorem stepDown_add_succ_mod (C b n : Nat) (hC : 0 < C) : (stepDown C b + (n + 1)) % C = (b + n) % C := by
  rw [stepDown, Nat.mod_add_mod, show b + C - 1 + (n + 1) = b + n + C by omega, Nat.add_mod_right]

theorem stepUp_add_mod (C b n : Nat) : (stepUp C b + n) % C = (b + (n + 1)) % C := by
  rw [stepUp, Nat.mod_add_mod, Nat.add_assoc, Nat.add_comm 1 n]

theorem stepDown_lt (C b : Nat) (hC : 0 < C) : stepDown C b < C := Nat.mod_lt _ hC

theorem stepUp_lt (C b : Nat) (hC : 0 < C) : stepUp C b < C := Nat.mod_lt _ hC

/-- The slot below the back is the slot of the last logical index a queue can have. -/
theorem stepDown_begin (C : Nat) (Q : Queue) (hC : 0 < C) : stepDown C Q.begin = Q.phys C (C - 1) := by
  rw [stepDown, Queue.phys, Nat.add_sub_assoc hC]

theorem phys_zero (C : Nat) (Q : Queue) (hb : Q.begin < C) : Q.phys C 0 = Q.begin := Nat.mod_eq_of_lt hb

theorem frontPtr_eq_phys (C : Nat) (Q : Queue) (hs : Q.size ≠ 0) : Q.frontPtr C = Q.phys C (Q.size - 1) := by
  rw [Queue.frontPtr, Queue.phys, Nat.add_sub_assoc (by omega)]

/-- The predecessor of a number, modulo `C`. -/
theorem pred_mod (C n : Nat) (hC : 0 < C) (hn : 0 < n) :
    (n - 1) % C = if n % C = 0 then C - 1 else n % C - 1 := by
  have hstep : (n - 1) % C = stepDown C (n % C) := by
    have hlift : (stepDown C (n % C) + 1) % C = n % C := by
      rw [stepDown_add_succ_mod C _ 0 hC, Nat.add_zero, Nat.mod_mod]
    have hpred : ((n - 1) % C + 1) % C = n % C := by
      rw [Nat.mod_add_mod, Nat.sub_add_cancel hn]
    have hcancel : (n - 1) % C ≡ stepDown C (n % C) [MOD C] := Nat.ModEq.add_right_cancel' 1 (hpred.trans hlift.symm)
    exact hcancel.eq_of_lt_of_lt (Nat.mod_lt _ hC) (stepDown_lt C _ hC)
  rw [hstep, stepDown_eq C _ (Nat.mod_lt _ hC)]

/-! ### The list laws of one queue

What each change of `storage`, `begin` and `size` does to the logical sequence. -/

theorem seq_length {C : Nat} {Q : Queue} {A : List Word} (hA : Q.seq C = some A) : A.length = Q.size :=
  ((seq_eq_some_iff C Q A).1 hA).1

theorem elem_of_seq {C : Nat} {Q : Queue} {A : List Word} (hA : Q.seq C = some A) (i : Nat) (hi : i < Q.size) :
    Q.elem C i = A[i]? :=
  ((seq_eq_some_iff C Q A).1 hA).2 i hi

theorem seq_of_size_zero (C : Nat) (Q : Queue) (hs : Q.size = 0) : Q.seq C = some [] := by
  rw [Queue.seq, hs, Queue.readFrom]

/-- 41_push_pop.md R120: the new element stands before the others. -/
theorem seq_push {C : Nat} {Q : Queue} {A : List Word} {m : Memory} {v : Word} (hQ : Q.Wf C) (hs : Q.size ≠ C)
    (hA : Q.seq C = some A) (hm : Memory.write Q.storage (stepDown C Q.begin) v = some m) :
    ({ storage := m, begin := stepDown C Q.begin, size := Q.size + 1 } : Queue).seq C = some (v :: A) := by
  obtain ⟨_, hb, hle⟩ := hQ
  have hC : 0 < C := by omega
  obtain ⟨_, _, hread⟩ := write_eq_some _ _ _ _ hm
  refine (seq_eq_some_iff _ _ _).2 ⟨by simp [seq_length hA], fun i hi => ?_⟩
  change i < Q.size + 1 at hi
  change Memory.read m ((stepDown C Q.begin + i) % C) = _
  cases i with
  | zero => simp [hread, Nat.mod_eq_of_lt (stepDown_lt C Q.begin hC)]
  | succ i =>
    have hother : Q.phys C i ≠ stepDown C Q.begin := by
      rw [stepDown_begin C Q hC]
      intro hsame
      have := phys_inj C Q i (C - 1) hb (by omega) (by omega) hsame
      omega
    calc Memory.read m ((stepDown C Q.begin + (i + 1)) % C)
        = Memory.read m (Q.phys C i) := by rw [stepDown_add_succ_mod C _ _ hC]; rfl
      _ = Q.elem C i := by rw [hread, if_neg hother]; rfl
      _ = (v :: A)[i + 1]? := by rw [elem_of_seq hA i (by omega), List.getElem?_cons_succ]

/-- 41_push_pop.md R124: the first element goes. -/
theorem seq_popBack {C : Nat} {Q : Queue} {v : Word} {L : List Word} (hA : Q.seq C = some (v :: L)) :
    ({ Q with begin := stepUp C Q.begin, size := Q.size - 1 } : Queue).seq C = some L := by
  have hl : L.length + 1 = Q.size := seq_length hA
  refine (seq_eq_some_iff _ _ _).2 ⟨by simp [← hl], fun i hi => ?_⟩
  change i < Q.size - 1 at hi
  calc Memory.read Q.storage ((stepUp C Q.begin + i) % C)
      = Q.elem C (i + 1) := by rw [stepUp_add_mod]; rfl
    _ = L[i]? := by rw [elem_of_seq hA (i + 1) (by omega), List.getElem?_cons_succ]

/-- 41_push_pop.md R128: the last element goes. -/
theorem seq_popFront {C : Nat} {Q : Queue} {A : List Word} (hA : Q.seq C = some A) :
    ({ Q with size := Q.size - 1 } : Queue).seq C = some A.dropLast := by
  have hl := seq_length hA
  refine (seq_eq_some_iff _ _ _).2 ⟨by simp [hl], fun i hi => ?_⟩
  change i < Q.size - 1 at hi
  rw [List.getElem?_dropLast, if_pos (by omega)]
  exact elem_of_seq hA i (by omega)

/-- The element of POP_BACK is the first of the sequence. -/
theorem read_begin {C : Nat} {Q : Queue} {A : List Word} (hQ : Q.Wf C) (hs : Q.size ≠ 0) (hA : Q.seq C = some A) :
    Memory.read Q.storage Q.begin = A[0]? := by
  obtain ⟨_, hb, _⟩ := hQ
  rw [← elem_of_seq hA 0 (by omega), Queue.elem, phys_zero C Q hb]

/-- The element of POP_FRONT is the last of the sequence. -/
theorem read_frontPtr {C : Nat} {Q : Queue} {A : List Word} (hs : Q.size ≠ 0) (hA : Q.seq C = some A) :
    Memory.read Q.storage (Q.frontPtr C) = A.getLast? := by
  rw [frontPtr_eq_phys C Q hs, List.getLast?_eq_getElem?, seq_length hA]
  exact elem_of_seq hA (Q.size - 1) (by omega)

/-- All that REMOVE_AT's loop can do: it is `shift_of_wf` for the range of the command. -/
theorem shift_eq_some {C k : Nat} {Q Q' : Queue} (hQ : Q.Wf C) (hk : k < Q.size)
    (h : Q.shift C k (Q.size - 1 - k) = some Q') :
    Q'.begin = Q.begin ∧ Memory.wf C Q'.storage = true ∧
      ∀ i, i < C → Q'.elem C i = if k ≤ i ∧ i < Q.size - 1 then Q.elem C (i + 1) else Q.elem C i := by
  have hle := hQ.2.2
  obtain ⟨R, hR, hb, _, hm, he⟩ := shift_of_wf C (Q.size - 1 - k) k Q hQ (by omega)
  obtain rfl : R = Q' := Option.some.inj (hR.symm.trans h)
  rw [show k + (Q.size - 1 - k) = Q.size - 1 by omega] at he
  exact ⟨hb, hm, he⟩

/-- 42_indexed.md R148: the element at the index goes and those after it move down. -/
theorem seq_removeAt {C k : Nat} {Q Q' : Queue} {A : List Word} (hQ : Q.Wf C) (hk : k < Q.size)
    (hA : Q.seq C = some A) (h : Q.shift C k (Q.size - 1 - k) = some Q') :
    ({ Q' with size := Q.size - 1 } : Queue).seq C = some (A.eraseIdx k) := by
  have hl := seq_length hA
  have hle := hQ.2.2
  obtain ⟨_, _, he⟩ := shift_eq_some hQ hk h
  refine (seq_eq_some_iff _ _ _).2 ⟨by rw [List.length_eraseIdx_of_lt (by omega), hl], fun i hi => ?_⟩
  change i < Q.size - 1 at hi
  change Q'.elem C i = _
  rw [he i (by omega), List.getElem?_eraseIdx]
  by_cases hik : i < k
  · rw [if_neg (by omega), if_pos hik, elem_of_seq hA i (by omega)]
  · rw [if_pos (by omega), if_neg hik, elem_of_seq hA (i + 1) (by omega)]

/-- 40_construct.md R104, 43_merge.md R165: a run written from slot 0 on is the sequence. -/
theorem seq_writeRun {C : Nat} {m m' : Memory} {vs : List Word} (hv : vs.length ≤ C)
    (h : Memory.writeRun m 0 vs = some m') :
    ({ storage := m', begin := 0, size := vs.length } : Queue).seq C = some vs := by
  obtain ⟨_, hread⟩ := writeRun_eq_some vs m m' 0 h
  refine (seq_eq_some_iff _ _ _).2 ⟨rfl, fun i hi => ?_⟩
  change i < vs.length at hi
  change Memory.read m' ((0 + i) % C) = _
  rw [Nat.zero_add, Nat.mod_eq_of_lt (by omega), hread, if_pos (by omega), Nat.sub_zero]

/-- FIND's scan of a range is the list's own search (42_indexed.md R144). -/
theorem scan_of_readFrom (C : Nat) (Q : Queue) (v : Word) : ∀ (n k : Nat) (vs : List Word),
    Q.readFrom C k n = some vs → Q.scan C v k n = some ((vs.findIdx? (· == v)).map (· + k)) := by
  intro n
  induction n with
  | zero =>
    intro k vs h
    obtain rfl : [] = vs := by simpa [Queue.readFrom] using h
    rfl
  | succ n ih =>
    intro k vs h
    simp only [Queue.readFrom] at h
    split at h
    · cases h
    next w hw =>
      split at h
      · cases h
      next ws hws =>
        obtain rfl : w :: ws = vs := Option.some.inj h
        by_cases hwv : w = v
        · simp [Queue.scan, hw, hwv, List.findIdx?_cons]
        · simp [Queue.scan, hw, hwv, List.findIdx?_cons, ih (k + 1) ws hws, Function.comp_def, Nat.add_assoc,
            Nat.add_comm 1 k]

theorem scan_of_seq {C : Nat} {Q : Queue} {A : List Word} (v : Word) (hA : Q.seq C = some A) :
    Q.scan C v 0 Q.size = some (A.findIdx? (· == v)) := by
  simpa using scan_of_readFrom C Q v Q.size 0 A hA

/-! ### Every command keeps the invariants -/

theorem takeBeats_wf (q : QueueId) (n : Nat) (taken : List Word) (s t : State) (hs : s.Wf) (hf : s.fault = false)
    (hn : n ≤ s.capacity) (ht : taken.length ≤ n) (h : s.takeBeats q n taken = .next t) : t.Wf := by
  have ⟨hcap, hq0, hq1, hcause, _⟩ := hs
  by_cases hw : n ≤ taken.length + s.wd.length
  · obtain ⟨m, hm, heq⟩ := takeBeats_of_enough q n taken s hs hn ht hw
    cases heq.symm.trans h
    have hmwf := writeRun_keeps_wf s.capacity _ m 0 _ hm (queue_wf s hs q).1
    exact respond_wf _ _ _ (setQueue_wf _ q _ ⟨hcap, hq0, hq1, hcause, rfl⟩ ⟨hmwf, hcap.1, hn⟩)
  · cases (takeBeats_of_missing q n taken s (by omega)).symm.trans h
    exact ⟨hcap, hq0, hq1, hcause, by simp [Transaction.wf, hf, hn]; omega⟩

/-- A LOAD of legal length goes on as one that waits and has taken no beat (40_construct.md R104). -/
theorem exec_load_of_le (q : QueueId) (length : Word) (s : State) (h : length.toNat ≤ s.capacity) :
    exec (.load q length) s = s.takeBeats q length.toNat [] := by
  simp [exec, execLoad, Nat.not_lt.2 h]

/-- The answer of a command that replaces one queue keeps the invariants. -/
theorem setQueue_respond_wf (s : State) (q : QueueId) (Q : Queue) (status : Status) (data : Word) (hs : s.Wf)
    (hQ : Q.Wf s.capacity) : ((s.setQueue q Q).respond status data).Wf :=
  respond_wf _ _ _ (setQueue_wf s q Q hs hQ)

/-- Every command that runs while FAULT = 0 and no LOAD waits keeps the invariants. -/
theorem exec_wf (i : Instr) (s t : State) (hs : s.Wf) (hf : s.fault = false) (hx : s.xact = .idle)
    (h : exec i s = .next t) : t.Wf := by
  have hC := wf_capacity_pos s hs
  cases i with
  | init q =>
    obtain rfl := execInit_cases q s t h
    exact setQueue_respond_wf s q _ _ _ hs ⟨(queue_wf s hs q).1, hC, Nat.zero_le _⟩
  | pushBack q v =>
    obtain ⟨hm, _, hsize⟩ := queue_wf s hs q
    obtain ⟨_, rfl⟩ | ⟨hfull, m, hw, rfl⟩ := execPushBack_cases q v s t h
    · exact respond_wf s _ _ hs
    · exact setQueue_respond_wf s q _ _ _ hs
        ⟨write_keeps_wf _ _ m _ v hw hm, stepDown_lt _ _ hC, Nat.lt_of_le_of_ne hsize hfull⟩
  | popBack q =>
    obtain ⟨hm, _, hsize⟩ := queue_wf s hs q
    obtain ⟨_, rfl⟩ | ⟨_, v, _, rfl⟩ := execPopBack_cases q s t h
    · exact respond_wf s _ _ hs
    · exact setQueue_respond_wf s q _ _ _ hs ⟨hm, stepUp_lt _ _ hC, (Nat.sub_le _ 1).trans hsize⟩
  | popFront q =>
    obtain ⟨hm, hb, hsize⟩ := queue_wf s hs q
    obtain ⟨_, rfl⟩ | ⟨_, v, _, rfl⟩ := execPopFront_cases q s t h
    · exact respond_wf s _ _ hs
    · exact setQueue_respond_wf s q _ _ _ hs ⟨hm, hb, (Nat.sub_le _ 1).trans hsize⟩
  | get q index =>
    obtain ⟨_, v, _, rfl⟩ | ⟨_, rfl⟩ := execGet_cases q index s t h
    · exact respond_wf s _ _ hs
    · exact raise_wf s _ hs (by decide) hx
  | find q v =>
    obtain ⟨k, _, rfl⟩ | ⟨_, rfl⟩ := execFind_cases q v s t h
    · exact respond_wf s _ _ hs
    · exact respond_wf s _ _ hs
  | removeAt q index =>
    obtain ⟨hi, Q', hshift, rfl⟩ | ⟨_, rfl⟩ := execRemoveAt_cases q index s t h
    · obtain ⟨_, hb, hsize⟩ := queue_wf s hs q
      obtain ⟨hb', hm', _⟩ := shift_eq_some (queue_wf s hs q) hi hshift
      exact setQueue_respond_wf s q _ _ _ hs ⟨hm', hb' ▸ hb, (Nat.sub_le _ 1).trans hsize⟩
    · exact raise_wf s _ hs (by decide) hx
  | merge d src =>
    obtain ⟨_, rfl⟩ | ⟨_, _, rfl⟩ | ⟨_, hfits, A, B, m, _, _, hm, rfl⟩ := execMerge_cases d src s t h
    · exact raise_wf s _ hs (by decide) hx
    · exact respond_wf s _ _ hs
    · have hd := setQueue_wf s d { storage := m, begin := 0, size := (s.queue d).size + (s.queue src).size } hs
        ⟨writeRun_keeps_wf _ _ m 0 _ hm (queue_wf s hs d).1, hC, hfits⟩
      obtain ⟨hmsrc, hbsrc, _⟩ := queue_wf s hs src
      refine setQueue_respond_wf _ src _ _ _ hd ?_
      rw [setQueue_capacity]
      exact ⟨hmsrc, hbsrc, Nat.zero_le _⟩
  | copyTo q =>
    obtain ⟨A, _, rfl⟩ := execCopyTo_cases q s t h
    exact emit_wf _ A (respond_wf s _ _ hs)
  | load q n =>
    by_cases hn : n.toNat ≤ s.capacity
    · rw [exec_load_of_le q n s hn] at h
      exact takeBeats_wf q n.toNat [] s t hs hf hn (Nat.zero_le _) h
    · obtain ⟨_, rfl⟩ | ⟨hle, _⟩ | ⟨hle, _⟩ := execLoad_cases q n s t h
      · exact raise_wf s _ hs (by decide) hx
      · exact absurd hle hn
      · exact absurd hle hn
  | size q =>
    obtain rfl := execSize_cases q s t h
    exact respond_wf s _ _ hs

theorem accept_wf (w : CommandWord) (s t : State) (hs : s.Wf) (hf : s.fault = false) (hx : s.xact = .idle)
    (h : s.accept w = .next t) : t.Wf := by
  unfold State.accept at h
  split at h
  · cases h
    exact raise_wf s _ hs (by decide) hx
  · exact exec_wf _ s t hs hf hx h

theorem step_wf (s t : State) (hs : s.Wf) (h : step s = .next t) : t.Wf := by
  obtain ⟨rest, _, heq⟩ | ⟨_, _, heq⟩ | ⟨_, hf, hrun⟩ := step_eq s
  · cases heq.symm.trans h
    exact applyReset_wf { s with host := rest } hs
  · cases heq.symm.trans h
  · obtain ⟨q, n, taken, hx, heq⟩ | ⟨hx, w, rest, _, _, heq⟩ | ⟨_, _, _, _, _, heq⟩ | ⟨_, _, heq⟩ := hrun
    · obtain ⟨hn, ht⟩ := loading_wf s hs q n taken hx
      exact takeBeats_wf q n taken s t hs hf hn ht.le (heq.symm.trans h)
    · exact accept_wf w { s with host := rest } t hs hf hx (heq.symm.trans h)
    · cases heq.symm.trans h
      exact hs
    · cases heq.symm.trans h
      exact hs

/-! ### The end pointer -/

/-- A queue whose `begin` stays and whose `size` goes down by one has END_PTR one lower, modulo `C`. -/
theorem endPtr_of_size_pred {C : Nat} {Q Q' : Queue} (hC : 0 < C) (hs : Q.size ≠ 0) (hb : Q'.begin = Q.begin)
    (hs' : Q'.size = Q.size - 1) : Q'.endPtr C = if Q.endPtr C = 0 then C - 1 else Q.endPtr C - 1 := by
  rw [Queue.endPtr, Queue.endPtr, hb, hs', ← Nat.add_sub_assoc (Nat.one_le_iff_ne_zero.2 hs)]
  exact pred_mod C _ hC (by omega)

theorem execPushBack_endPtr (q : QueueId) (v : Word) (s t : State) (hs : s.Wf) (h : exec (.pushBack q v) s = .next t) :
    (t.queue q).endPtr s.capacity = (s.queue q).endPtr s.capacity := by
  obtain ⟨_, rfl⟩ | ⟨_, m, _, rfl⟩ := execPushBack_cases q v s t h
  · rw [respond_queue]
  · rw [respond_queue, setQueue_queue_self]
    exact stepDown_add_succ_mod _ _ _ (wf_capacity_pos s hs)

theorem execPopBack_endPtr (q : QueueId) (s t : State) (h : exec (.popBack q) s = .next t) :
    (t.queue q).endPtr s.capacity = (s.queue q).endPtr s.capacity := by
  obtain ⟨_, rfl⟩ | ⟨hne, v, _, rfl⟩ := execPopBack_cases q s t h
  · rw [respond_queue]
  · rw [respond_queue, setQueue_queue_self, Queue.endPtr, Queue.endPtr, stepUp_add_mod, Nat.sub_one_add_one hne]

/-- POP_FRONT either leaves its queue or takes one element off, with `begin` where it was (41_push_pop.md R128). -/
theorem execPopFront_queue (q : QueueId) (s t : State) (h : exec (.popFront q) s = .next t) :
    t.queue q = s.queue q ∨ ((s.queue q).size ≠ 0 ∧ (t.queue q).begin = (s.queue q).begin ∧
      (t.queue q).size = (s.queue q).size - 1) := by
  obtain ⟨_, rfl⟩ | ⟨hne, v, _, rfl⟩ := execPopFront_cases q s t h
  · exact .inl (respond_queue ..)
  · exact .inr ⟨hne, by simp, by simp⟩

/-- REMOVE_AT either leaves its queue or takes one element off, with `begin` where it was (42_indexed.md R148). -/
theorem execRemoveAt_queue (q : QueueId) (x : Word) (s t : State) (hs : s.Wf) (h : exec (.removeAt q x) s = .next t) :
    t.queue q = s.queue q ∨ ((s.queue q).size ≠ 0 ∧ (t.queue q).begin = (s.queue q).begin ∧
      (t.queue q).size = (s.queue q).size - 1) := by
  obtain ⟨hx, Q', hshift, rfl⟩ | ⟨_, rfl⟩ := execRemoveAt_cases q x s t h
  · obtain ⟨hb, _, _⟩ := shift_eq_some (queue_wf s hs q) hx hshift
    exact .inr ⟨by omega, by simp [hb], by simp⟩
  · exact .inl (raise_queue ..)

/-! ### The simulation of the abstract machine

`State.Holds` is the relation between a state and the pair of lists of 10_state.md R39, and `Shows` is one commuting step of
the simulation. -/

/-- The logical sequences of the state are these two lists. -/
def State.Holds (s : State) (x : Lists) : Prop := ∀ q, s.seq q = some (x.get q)

theorem holds_iff (s : State) (x : Lists) : s.Holds x ↔ s.seq .q0 = some x.q0 ∧ s.seq .q1 = some x.q1 := by
  refine ⟨fun h => ⟨h .q0, h .q1⟩, fun ⟨h0, h1⟩ q => ?_⟩
  cases q
  · exact h0
  · exact h1

/-- A state that keeps the invariants has two logical sequences. -/
theorem exists_holds (s : State) (hs : s.Wf) : ∃ x, s.Holds x := by
  have hC := wf_capacity_pos s hs
  obtain ⟨A, hA⟩ := seq_isSome s.capacity (s.queue .q0) hC (queue_wf s hs .q0)
  obtain ⟨B, hB⟩ := seq_isSome s.capacity (s.queue .q1) hC (queue_wf s hs .q1)
  exact ⟨⟨A, B⟩, (holds_iff s ⟨A, B⟩).2 ⟨hA, hB⟩⟩

theorem Lists.get_set (x : Lists) (q r : QueueId) (L : List Word) :
    (x.set q L).get r = if r = q then L else x.get r := by
  cases q <;> cases r <;> rfl

theorem setQueue_seq (s : State) (q r : QueueId) (Q : Queue) :
    (s.setQueue q Q).seq r = if r = q then Q.seq s.capacity else s.seq r := by
  unfold State.seq
  rw [setQueue_queue, setQueue_capacity]
  split <;> rfl

/-- Replacing a queue by one with the sequence `L` replaces that list by `L`. -/
theorem State.Holds.setQueue {s : State} {x : Lists} (hx : s.Holds x) (q : QueueId) {Q : Queue} {L : List Word}
    (hQ : Q.seq s.capacity = some L) : (s.setQueue q Q).Holds (x.set q L) := by
  intro r
  rw [setQueue_seq, Lists.get_set]
  split
  · exact hQ
  · exact hx r

theorem State.Holds.respond {s : State} {x : Lists} (hx : s.Holds x) (status : Status) (data : Word) :
    (s.respond status data).Holds x := fun q => (respond_seq s status data q).trans (hx q)

/-- The next state `t` of a command given to `s` has the sequences, and has shown what, the abstract outcome says. -/
structure Shows (s t : State) (out : Lists × Visible) : Prop where
  holds : t.Holds out.1
  rsp : t.rsp = s.rsp ++ [out.2.response]
  rd : t.rd = s.rd ++ out.2.stream
  fault : t.fault = (s.fault || out.2.cause.isSome)
  faultCause : t.faultCause = out.2.cause.getD s.faultCause

/-- An answer that leaves the queues. -/
theorem shows_respond {s : State} {x : Lists} (hx : s.Holds x) (status : Status) (data : Word) :
    Shows s (s.respond status data) (x, .answer status data) :=
  { holds := hx.respond status data
    rsp := rfl
    rd := (List.append_nil s.rd).symm
    fault := (Bool.or_false s.fault).symm
    faultCause := rfl }

/-- A fault. -/
theorem shows_raise {s : State} {x : Lists} (hx : s.Holds x) (c : Cause) : Shows s (s.raise c) (x, .raised c) :=
  { holds := fun q => (raise_seq s c q).trans (hx q)
    rsp := rfl
    rd := (List.append_nil s.rd).symm
    fault := (Bool.or_true s.fault).symm
    faultCause := rfl }

/-- An outcome seen from a state that differs only in a queue is seen alike from the state before. -/
theorem Shows.of_setQueue {s t : State} {q : QueueId} {Q : Queue} {out : Lists × Visible}
    (h : Shows (s.setQueue q Q) t out) : Shows s t out := by
  obtain ⟨hholds, hrsp, hrd, hfault, hcause⟩ := h
  rw [setQueue_rsp] at hrsp
  rw [setQueue_rd] at hrd
  rw [setQueue_fault] at hfault
  rw [setQueue_faultCause] at hcause
  exact ⟨hholds, hrsp, hrd, hfault, hcause⟩

/-- An answer with one queue replaced. -/
theorem shows_setQueue {s : State} {x : Lists} (hx : s.Holds x) (q : QueueId) {Q : Queue} {L : List Word}
    (hQ : Q.seq s.capacity = some L) (status : Status) (data : Word) :
    Shows s ((s.setQueue q Q).respond status data) (x.set q L, .answer status data) :=
  (shows_respond (hx.setQueue q hQ) status data).of_setQueue

section commands
variable {s t : State} {x : Lists}

theorem execInit_shows (q : QueueId) (hx : s.Holds x) (h : exec (.init q) s = .next t) :
    Shows s t (listStep s.capacity s.wd (.init q) x) := by
  obtain rfl := execInit_cases q s t h
  exact shows_setQueue hx q (seq_of_size_zero _ _ rfl) .ok 0

theorem execPushBack_shows (q : QueueId) (v : Word) (hs : s.Wf) (hx : s.Holds x)
    (h : exec (.pushBack q v) s = .next t) : Shows s t (listStep s.capacity s.wd (.pushBack q v) x) := by
  have hl : (x.get q).length = (s.queue q).size := seq_length (hx q)
  simp only [listStep, hl]
  obtain ⟨hfull, rfl⟩ | ⟨hfull, m, hm, rfl⟩ := execPushBack_cases q v s t h
  · rw [if_pos hfull]
    exact shows_respond hx .capacityExceeded 0
  · rw [if_neg hfull]
    exact shows_setQueue hx q (seq_push (queue_wf s hs q) hfull (hx q) hm) .ok 0

theorem execPopBack_shows (q : QueueId) (hs : s.Wf) (hx : s.Holds x) (h : exec (.popBack q) s = .next t) :
    Shows s t (listStep s.capacity s.wd (.popBack q) x) := by
  have hA : (s.queue q).seq s.capacity = some (x.get q) := hx q
  have hl := seq_length hA
  cases hL : x.get q with
  | nil =>
    simp only [listStep, hL]
    rw [hL, List.length_nil] at hl
    obtain ⟨_, rfl⟩ | ⟨hne, _⟩ := execPopBack_cases q s t h
    · exact shows_respond hx .empty 0
    · exact absurd hl.symm hne
  | cons a L =>
    simp only [listStep, hL]
    rw [hL] at hA hl
    obtain ⟨hempty, _⟩ | ⟨hne, v, hv, rfl⟩ := execPopBack_cases q s t h
    · simp [hempty] at hl
    · obtain rfl : a = v := by simpa [hv] using (read_begin (queue_wf s hs q) hne hA).symm
      exact shows_setQueue hx q (seq_popBack hA) .ok a

theorem execPopFront_shows (q : QueueId) (hx : s.Holds x) (h : exec (.popFront q) s = .next t) :
    Shows s t (listStep s.capacity s.wd (.popFront q) x) := by
  have hA : (s.queue q).seq s.capacity = some (x.get q) := hx q
  obtain ⟨hempty, rfl⟩ | ⟨hne, v, hv, rfl⟩ := execPopFront_cases q s t h
  · have hnil : x.get q = [] := List.eq_nil_of_length_eq_zero ((seq_length hA).trans hempty)
    simp only [listStep, hnil, List.getLast?_nil]
    exact shows_respond hx .empty 0
  · have hlast : (x.get q).getLast? = some v := (read_frontPtr hne hA).symm.trans hv
    simp only [listStep, hlast]
    exact shows_setQueue hx q (seq_popFront hA) .ok v

theorem execGet_shows (q : QueueId) (i : Word) (hx : s.Holds x) (h : exec (.get q i) s = .next t) :
    Shows s t (listStep s.capacity s.wd (.get q i) x) := by
  have hA : (s.queue q).seq s.capacity = some (x.get q) := hx q
  obtain ⟨hi, v, hv, rfl⟩ | ⟨hi, rfl⟩ := execGet_cases q i s t h
  · have hget : (x.get q)[i.toNat]? = some v := (elem_of_seq hA _ hi).symm.trans hv
    simp only [listStep, hget]
    exact shows_respond hx .ok v
  · have hget : (x.get q)[i.toNat]? = none := List.getElem?_eq_none ((seq_length hA).trans_le hi)
    simp only [listStep, hget]
    exact shows_raise hx .indexOutOfRange

theorem execFind_shows (q : QueueId) (v : Word) (hx : s.Holds x) (h : exec (.find q v) s = .next t) :
    Shows s t (listStep s.capacity s.wd (.find q v) x) := by
  have hscan := scan_of_seq v (hx q)
  obtain ⟨k, hk, rfl⟩ | ⟨hnone, rfl⟩ := execFind_cases q v s t h
  · have hfind : (x.get q).findIdx? (· == v) = some k := Option.some.inj (hscan.symm.trans hk)
    simp only [listStep, hfind]
    exact shows_respond hx .ok _
  · have hfind : (x.get q).findIdx? (· == v) = none := Option.some.inj (hscan.symm.trans hnone)
    simp only [listStep, hfind]
    exact shows_respond hx .notFound 0

theorem execRemoveAt_shows (q : QueueId) (i : Word) (hs : s.Wf) (hx : s.Holds x)
    (h : exec (.removeAt q i) s = .next t) : Shows s t (listStep s.capacity s.wd (.removeAt q i) x) := by
  have hl : (x.get q).length = (s.queue q).size := seq_length (hx q)
  simp only [listStep, hl]
  obtain ⟨hi, Q', hshift, rfl⟩ | ⟨hi, rfl⟩ := execRemoveAt_cases q i s t h
  · rw [if_pos hi]
    exact shows_setQueue hx q (seq_removeAt (queue_wf s hs q) hi (hx q) hshift) .ok 0
  · rw [if_neg (Nat.not_lt.2 hi)]
    exact shows_raise hx .indexOutOfRange

theorem execMerge_shows (d src : QueueId) (hx : s.Holds x) (h : exec (.merge d src) s = .next t) :
    Shows s t (listStep s.capacity s.wd (.merge d src) x) := by
  have hld : (x.get d).length = (s.queue d).size := seq_length (hx d)
  have hls : (x.get src).length = (s.queue src).size := seq_length (hx src)
  simp only [listStep, hld, hls]
  obtain ⟨hsame, rfl⟩ | ⟨hne, hover, rfl⟩ | ⟨hne, hfits, A, B, m, hA, hB, hm, rfl⟩ := execMerge_cases d src s t h
  · rw [if_pos hsame]
    exact shows_raise hx .mergeAlias
  · rw [if_neg hne, if_pos hover]
    exact shows_respond hx .wouldExceedCapacity 0
  · rw [if_neg hne, if_neg (Nat.not_lt.2 hfits)]
    obtain rfl : x.get d = A := Option.some.inj ((hx d).symm.trans hA)
    obtain rfl : x.get src = B := Option.some.inj ((hx src).symm.trans hB)
    have hlen : (zipper (x.get d) (x.get src)).length = (s.queue d).size + (s.queue src).size := by
      rw [zipper_length, hld, hls]
    rw [← hlen] at hfits ⊢
    exact (shows_setQueue (hx.setQueue d (seq_writeRun hfits hm)) src (seq_of_size_zero _ _ rfl) .ok 0).of_setQueue

theorem execCopyTo_shows (q : QueueId) (hx : s.Holds x) (h : exec (.copyTo q) s = .next t) :
    Shows s t (listStep s.capacity s.wd (.copyTo q) x) := by
  obtain ⟨A, hA, rfl⟩ := execCopyTo_cases q s t h
  obtain rfl : x.get q = A := Option.some.inj ((hx q).symm.trans hA)
  have hl : (x.get q).length = (s.queue q).size := seq_length (hx q)
  simp only [listStep, hl]
  exact
    { holds := fun r => (emit_seq _ _ r).trans (hx.respond _ _ r)
      rsp := rfl
      rd := rfl
      fault := (Bool.or_false s.fault).symm
      faultCause := rfl }

theorem execLoad_shows (q : QueueId) (n : Word) (hx : s.Holds x) (hV : s.hasOperands (.load q n) = true)
    (h : exec (.load q n) s = .next t) : Shows s t (listStep s.capacity s.wd (.load q n) x) := by
  simp only [State.hasOperands, Bool.or_eq_true, decide_eq_true_eq] at hV
  simp only [listStep]
  obtain ⟨hover, rfl⟩ | ⟨hle, hmissing, _⟩ | ⟨hle, hbeats, m, hm, rfl⟩ := execLoad_cases q n s t h
  · rw [if_pos hover]
    exact shows_raise hx .loadLength
  · omega
  · rw [if_neg (Nat.not_lt.2 hle)]
    have hlen : (s.wd.take n.toNat).length = n.toNat := List.length_take_of_le hbeats
    have hseq := seq_writeRun (C := s.capacity) (hlen.trans_le hle) hm
    rw [hlen] at hseq
    have hx' : ({ s with wd := s.wd.drop n.toNat, xact := .idle } : State).Holds x := hx
    obtain ⟨hholds, hrsp, hrd, hfault, hcause⟩ := shows_setQueue hx' q hseq .ok 0
    exact ⟨hholds, hrsp, hrd, hfault, hcause⟩

theorem execSize_shows (q : QueueId) (hx : s.Holds x) (h : exec (.size q) s = .next t) :
    Shows s t (listStep s.capacity s.wd (.size q) x) := by
  obtain rfl := execSize_cases q s t h
  have hl : (x.get q).length = (s.queue q).size := seq_length (hx q)
  simp only [listStep, hl]
  exact shows_respond hx .ok _

/-- The commuting step: a command whose operands are at hand does and shows what the abstract machine does and shows. -/
theorem exec_shows (i : Instr) (hs : s.Wf) (hx : s.Holds x) (hV : s.hasOperands i = true) (h : exec i s = .next t) :
    Shows s t (listStep s.capacity s.wd i x) := by
  cases i with
  | init q => exact execInit_shows q hx h
  | pushBack q v => exact execPushBack_shows q v hs hx h
  | popBack q => exact execPopBack_shows q hs hx h
  | popFront q => exact execPopFront_shows q hx h
  | get q index => exact execGet_shows q index hx h
  | find q v => exact execFind_shows q v hx h
  | removeAt q index => exact execRemoveAt_shows q index hs hx h
  | merge d src => exact execMerge_shows d src hx h
  | copyTo q => exact execCopyTo_shows q hx h
  | load q n => exact execLoad_shows q n hx hV h
  | size q => exact execSize_shows q hx h

end commands

/-! ### What of the transport a command changes -/

/-- The beats to come after a command: a LOAD of legal length takes those it has and needs (40_construct.md R104). -/
def beatsAfter (C : Nat) (wd : List Word) : Instr → List Word
  | .load _ n => if C < n.toNat then wd else wd.drop n.toNat
  | _ => wd

/-- The transaction after a command: a LOAD of legal length waits or is done (40_construct.md R106). -/
def xactAfter (C : Nat) (wd : List Word) (x : Transaction) : Instr → Transaction
  | .load q n => if C < n.toNat then x else if wd.length < n.toNat then .loading q n.toNat wd else .idle
  | _ => x

/-- The transport state after a command is a function of the capacity and of the transport state before it. -/
theorem exec_transport (i : Instr) (s t : State) (h : exec i s = .next t) :
    t.wd = beatsAfter s.capacity s.wd i ∧ t.xact = xactAfter s.capacity s.wd s.xact i := by
  cases i with
  | init q =>
    obtain rfl := execInit_cases q s t h
    exact ⟨setQueue_wd .., setQueue_xact ..⟩
  | pushBack q v =>
    obtain ⟨_, rfl⟩ | ⟨_, m, _, rfl⟩ := execPushBack_cases q v s t h
    · exact ⟨rfl, rfl⟩
    · exact ⟨setQueue_wd .., setQueue_xact ..⟩
  | popBack q =>
    obtain ⟨_, rfl⟩ | ⟨_, v, _, rfl⟩ := execPopBack_cases q s t h
    · exact ⟨rfl, rfl⟩
    · exact ⟨setQueue_wd .., setQueue_xact ..⟩
  | popFront q =>
    obtain ⟨_, rfl⟩ | ⟨_, v, _, rfl⟩ := execPopFront_cases q s t h
    · exact ⟨rfl, rfl⟩
    · exact ⟨setQueue_wd .., setQueue_xact ..⟩
  | get q index =>
    obtain ⟨_, v, _, rfl⟩ | ⟨_, rfl⟩ := execGet_cases q index s t h
    · exact ⟨rfl, rfl⟩
    · exact ⟨rfl, rfl⟩
  | find q v =>
    obtain ⟨k, _, rfl⟩ | ⟨_, rfl⟩ := execFind_cases q v s t h
    · exact ⟨rfl, rfl⟩
    · exact ⟨rfl, rfl⟩
  | removeAt q index =>
    obtain ⟨_, Q', _, rfl⟩ | ⟨_, rfl⟩ := execRemoveAt_cases q index s t h
    · exact ⟨setQueue_wd .., setQueue_xact ..⟩
    · exact ⟨rfl, rfl⟩
  | merge d src =>
    obtain ⟨_, rfl⟩ | ⟨_, _, rfl⟩ | ⟨_, _, A, B, m, _, _, _, rfl⟩ := execMerge_cases d src s t h
    · exact ⟨rfl, rfl⟩
    · exact ⟨rfl, rfl⟩
    · exact ⟨by simp [beatsAfter], by simp [xactAfter]⟩
  | copyTo q =>
    obtain ⟨A, _, rfl⟩ := execCopyTo_cases q s t h
    exact ⟨rfl, rfl⟩
  | load q n =>
    simp only [beatsAfter, xactAfter]
    obtain ⟨hover, rfl⟩ | ⟨hle, hmissing, rfl⟩ | ⟨hle, hbeats, m, _, rfl⟩ := execLoad_cases q n s t h
    · rw [if_pos hover, if_pos hover]
      exact ⟨rfl, rfl⟩
    · rw [if_neg (Nat.not_lt.2 hle), if_neg (Nat.not_lt.2 hle), if_pos hmissing]
      exact ⟨(List.drop_of_length_le hmissing.le).symm, rfl⟩
    · rw [if_neg (Nat.not_lt.2 hle), if_neg (Nat.not_lt.2 hle), if_neg (Nat.not_lt.2 hbeats)]
      exact ⟨by simp, by simp⟩
  | size q =>
    obtain rfl := execSize_cases q s t h
    exact ⟨rfl, rfl⟩

/-! ### Two layouts of the same sequences -/

/-- What the host can see of two states, and the sequences behind it, are the same (10_state.md R39). -/
structure SameVisible (s₁ s₂ : State) : Prop where
  rsp : s₁.rsp = s₂.rsp
  rd : s₁.rd = s₂.rd
  fault : s₁.fault = s₂.fault
  faultCause : s₁.faultCause = s₂.faultCause
  seq : ∀ q, s₁.seq q = s₂.seq q

/-- The abstract outcome decides what is seen: this is where `begin`, stale slots and STORAGE_INIT drop out. -/
theorem SameVisible.of_shows {s₁ s₂ t₁ t₂ : State} {out : Lists × Visible} (h : SameVisible s₁ s₂)
    (h₁ : Shows s₁ t₁ out) (h₂ : Shows s₂ t₂ out) : SameVisible t₁ t₂ :=
  { rsp := by rw [h₁.rsp, h₂.rsp, h.rsp]
    rd := by rw [h₁.rd, h₂.rd, h.rd]
    fault := by rw [h₁.fault, h₂.fault, h.fault]
    faultCause := by rw [h₁.faultCause, h₂.faultCause, h.faultCause]
    seq := fun q => (h₁.holds q).trans (h₂.holds q).symm }

/-- A LOAD that does not have its beats shows nothing and changes no sequence (40_construct.md R106). -/
theorem exec_sameVisible_of_waits (i : Instr) (s t : State) (hV : s.hasOperands i = false) (h : exec i s = .next t) :
    SameVisible t s := by
  obtain ⟨q, n, rfl, hle, hmissing⟩ := (hasOperands_eq_false s i).1 hV
  obtain ⟨hover, _⟩ | ⟨_, _, rfl⟩ | ⟨_, hbeats, _⟩ := execLoad_cases q n s t h
  · omega
  · exact ⟨rfl, rfl, rfl, rfl, fun _ => rfl⟩
  · omega

theorem SameVisible.symm {s₁ s₂ : State} (h : SameVisible s₁ s₂) : SameVisible s₂ s₁ :=
  ⟨h.rsp.symm, h.rd.symm, h.fault.symm, h.faultCause.symm, fun q => (h.seq q).symm⟩

theorem SameVisible.trans {s₁ s₂ s₃ : State} (h : SameVisible s₁ s₂) (h' : SameVisible s₂ s₃) : SameVisible s₁ s₃ :=
  ⟨h.rsp.trans h'.rsp, h.rd.trans h'.rd, h.fault.trans h'.fault, h.faultCause.trans h'.faultCause,
    fun q => (h.seq q).trans (h'.seq q)⟩

theorem hasOperands_congr (i : Instr) (s₁ s₂ : State) (hC : s₁.capacity = s₂.capacity) (hwd : s₁.wd = s₂.wd) :
    s₁.hasOperands i = s₂.hasOperands i := by
  cases i <;> simp only [State.hasOperands, hC, hwd]

/-- A command keeps two states alike in what is seen. -/
theorem exec_sameVisible (i : Instr) (s₁ s₂ t₁ t₂ : State) (hs₁ : s₁.Wf) (hs₂ : s₂.Wf)
    (hC : s₁.capacity = s₂.capacity) (hwd : s₁.wd = s₂.wd) (hv : SameVisible s₁ s₂)
    (h₁ : exec i s₁ = .next t₁) (h₂ : exec i s₂ = .next t₂) : SameVisible t₁ t₂ := by
  have hV := hasOperands_congr i s₁ s₂ hC hwd
  cases hV₁ : s₁.hasOperands i with
  | false =>
    have hw₁ := exec_sameVisible_of_waits i s₁ t₁ hV₁ h₁
    have hw₂ := exec_sameVisible_of_waits i s₂ t₂ (hV.symm.trans hV₁) h₂
    exact hw₁.trans (hv.trans hw₂.symm)
  | true =>
    obtain ⟨x, hx₁⟩ := exists_holds s₁ hs₁
    have hx₂ : s₂.Holds x := fun q => (hv.seq q).symm.trans (hx₁ q)
    have hout₁ := exec_shows i hs₁ hx₁ hV₁ h₁
    have hout₂ := exec_shows i hs₂ hx₂ (hV.symm.trans hV₁) h₂
    rw [← hC, ← hwd] at hout₂
    exact hv.of_shows hout₁ hout₂

/-! ### The obligations -/

/-- Settles O3, over the kinds of step. -/
theorem stepKeepsInvariants : Obligations.StepKeepsInvariants := step_wf

/-- Settles O49, from the commuting step of each command. -/
theorem execRefinesListMachine : Obligations.ExecRefinesListMachine := by
  intro i s A B hs hA hB hload
  have hx : s.Holds ⟨A, B⟩ := (holds_iff s ⟨A, B⟩).2 ⟨hA, hB⟩
  have hV : s.hasOperands i = true := by
    rw [← Bool.not_eq_false, hasOperands_eq_false]
    rintro ⟨q, n, hi, hle, hmissing⟩
    have := hload q n hi hle
    omega
  obtain ⟨t, ht⟩ := exec_total i s hs
  obtain ⟨hholds, hrsp, hrd, hfault, hcause⟩ := exec_shows i hs hx hV ht
  obtain ⟨h0, h1⟩ := (holds_iff t _).1 hholds
  refine ⟨t, ht, h0, h1, hrsp, hrd, ?_⟩
  split
  next hnone => exact ⟨by simpa [hnone] using hfault, by simpa [hnone] using hcause⟩
  next c hsome => exact ⟨by simpa [hsome] using hfault, by simpa [hsome] using hcause⟩

/-- Settles O50: the abstract outcome (O49) decides what is seen and the sequences; the transport state and the invariants
follow for each of the two states. -/
theorem physicalLayoutIsInvisible : Obligations.PhysicalLayoutIsInvisible := by
  intro i s₁ s₂ hs₁ hs₂ hC hwd hfault hcause hrsp hrd hq0 hq1
  obtain ⟨t₁, h₁⟩ := exec_total i s₁ hs₁
  obtain ⟨t₂, h₂⟩ := exec_total i s₂ hs₂
  have hseq : ∀ q, s₁.seq q = s₂.seq q
    | .q0 => hq0
    | .q1 => hq1
  have hv := exec_sameVisible i s₁ s₂ t₁ t₂ hs₁ hs₂ hC hwd ⟨hrsp, hrd, hfault, hcause, hseq⟩ h₁ h₂
  obtain ⟨hwd₁, hxact₁⟩ := exec_transport i s₁ t₁ h₁
  obtain ⟨hwd₂, hxact₂⟩ := exec_transport i s₂ t₂ h₂
  have hcap₁ := (exec_answersBy i s₁ t₁ h₁).capacity_eq
  have hcap₂ := (exec_answersBy i s₂ t₂ h₂).capacity_eq
  refine ⟨t₁, t₂, h₁, h₂, hv.rsp, hv.rd, hv.fault, hv.faultCause, hv.seq .q0, hv.seq .q1, ?_, ?_, ?_, ?_⟩
  · rw [hcap₁, hcap₂, hC]
  · rw [hwd₁, hwd₂, hC, hwd]
  · intro hxact
    rw [hxact₁, hxact₂, hC, hwd, hxact]
  · intro hf hx₁ hx₂
    exact ⟨exec_wf i s₁ t₁ hs₁ hf hx₁ h₁, exec_wf i s₂ t₂ hs₂ (hfault.symm.trans hf) hx₂ h₂⟩

/-- Settles O46: END_PTR is `begin + size` modulo `C`; the ends at the back move both, the other two move `size` alone. -/
theorem endPointerMoves : Obligations.EndPointerMoves := by
  intro q x s t hs
  refine ⟨?_, ?_⟩
  · rintro (h | h)
    · exact execPushBack_endPtr q x s t hs h
    · exact execPopBack_endPtr q s t h
  · intro h hchanged
    have hqueue := h.elim (execPopFront_queue q s t) (execRemoveAt_queue q x s t hs)
    obtain ⟨hne, hb, hsize⟩ := hqueue.resolve_left hchanged
    exact endPtr_of_size_pred (wf_capacity_pos s hs) hne hb hsize

/-- Settles O1, register by register. -/
theorem resetStateHoldsResetValues : Obligations.ResetStateHoldsResetValues := by
  intro C hC
  have hread : ∀ q p, Memory.read ((State.resetWith C).queue q).storage p =
      if p < C then some (Config.storageInit 0 q.number p) else none := fun q p => by
    rw [resetWith_queue]
    exact read_unspecifiedStorage C 0 q.number p
  have hfull : ∀ q, (resetQueue C 0 q).isFull C = false := fun q =>
    beq_eq_false_iff_ne.2 (Nat.ne_of_lt hC.1)
  refine ⟨rfl, rfl, rfl, rfl, rfl, rfl, rfl, fun q p hp => ?_, fun q p hp => ?_, ?_, ?_, rfl, rfl⟩
  · rw [hread, if_pos hp]
    rfl
  · rw [hread, if_neg (Nat.not_lt.2 hp)]
  · change BitVec.ofBool true ++ BitVec.ofBool true = 0b11#2
    decide
  · change BitVec.ofBool ((resetQueue C 0 .q1).isFull C) ++ BitVec.ofBool ((resetQueue C 0 .q0).isFull C) = 0b00#2
    rw [hfull, hfull]
    decide

/-- Settles O2. -/
theorem resetStateKeepsInvariants : Obligations.ResetStateKeepsInvariants :=
  ⟨resetWith_wf, resetWith_wf Config.resetCapacity (by decide)⟩

/-- Settles O48: each pin is the flag of its queue, and 0 is not a capacity. -/
theorem statusPinsFollowSize : Obligations.StatusPinsFollowSize := by
  intro s hs
  have hC := wf_capacity_pos s hs
  refine ⟨fun q => ⟨emptyPins_getLsbD s q, fullPins_getLsbD s q⟩, ?_⟩
  exact pinPair_and_eq_zero _ _ _ _ (isEmpty_and_isFull _ s.q0 hC) (isEmpty_and_isFull _ s.q1 hC)

end Sys2Proof.Machine

/-! The memory of the block (20_memory.md): which queue a command may write (R63), which commands write none (R57), and the
arithmetic on slot numbers (R58). -/

namespace Sys2Proof.Machine

/-! ### Commands that only read -/

/-- From `s` to `t` nothing changed but the responses and the data beats given to the host. -/
def OnlyGives (s t : State) : Prop := ∃ rsp rd, t = { s with rsp := rsp, rd := rd }

theorem OnlyGives.queue_eq {s t : State} (h : OnlyGives s t) (q : QueueId) : t.queue q = s.queue q := by
  obtain ⟨_, _, rfl⟩ := h
  rfl

theorem respond_onlyGives (s : State) (status : Status) (data : Word) : OnlyGives s (s.respond status data) :=
  ⟨_, _, rfl⟩

theorem OnlyGives.emit {s t : State} (h : OnlyGives s t) (beats : List Word) : OnlyGives s (t.emit beats) := by
  obtain ⟨_, _, rfl⟩ := h
  exact ⟨_, _, rfl⟩

theorem execGet_onlyGives (q : QueueId) (index : Word) (s t : State) (h : exec (.get q index) s = .next t) :
    OnlyGives s t ∨ ((s.queue q).size ≤ index.toNat ∧ t = s.raise .indexOutOfRange) := by
  obtain ⟨_, v, _, rfl⟩ | hfault := execGet_cases q index s t h
  · exact .inl (respond_onlyGives ..)
  · exact .inr hfault

theorem execFind_onlyGives (q : QueueId) (v : Word) (s t : State) (h : exec (.find q v) s = .next t) :
    OnlyGives s t := by
  obtain ⟨k, _, rfl⟩ | ⟨_, rfl⟩ := execFind_cases q v s t h
  · exact respond_onlyGives ..
  · exact respond_onlyGives ..

theorem execCopyTo_onlyGives (q : QueueId) (s t : State) (h : exec (.copyTo q) s = .next t) : OnlyGives s t := by
  obtain ⟨A, _, rfl⟩ := execCopyTo_cases q s t h
  exact (respond_onlyGives ..).emit A

theorem execSize_onlyGives (q : QueueId) (s t : State) (h : exec (.size q) s = .next t) : OnlyGives s t := by
  obtain rfl := execSize_cases q s t h
  exact respond_onlyGives ..

/-- The four reading commands, together: a GET out of range is the only one that does more than give (20_memory.md R57). -/
theorem exec_read_onlyGives (q : QueueId) (x : Word) (i : Instr) (s t : State)
    (hi : i = .get q x ∨ i = .find q x ∨ i = .copyTo q ∨ i = .size q) (h : exec i s = .next t) :
    OnlyGives s t ∨ (i = .get q x ∧ (s.queue q).size ≤ x.toNat ∧ t = s.raise .indexOutOfRange) := by
  obtain rfl | rfl | rfl | rfl := hi
  · exact (execGet_onlyGives q x s t h).imp_right fun hfault => ⟨rfl, hfault⟩
  · exact .inl (execFind_onlyGives q x s t h)
  · exact .inl (execCopyTo_onlyGives q s t h)
  · exact .inl (execSize_onlyGives q s t h)

/-! ### The queue a command does not name -/

/-- A command other than MERGE replaces at most the queue of its Q field (20_memory.md R63). -/
theorem exec_queue_other (i : Instr) (s t : State) (hi : ∀ d src, i ≠ .merge d src) (h : exec i s = .next t) :
    t.queue i.queueField.other = s.queue i.queueField.other := by
  cases i with
  | init q =>
    obtain rfl := execInit_cases q s t h
    simp [Instr.queueField]
  | pushBack q v =>
    obtain ⟨_, rfl⟩ | ⟨_, m, _, rfl⟩ := execPushBack_cases q v s t h
    · exact respond_queue ..
    · simp [Instr.queueField]
  | popBack q =>
    obtain ⟨_, rfl⟩ | ⟨_, v, _, rfl⟩ := execPopBack_cases q s t h
    · exact respond_queue ..
    · simp [Instr.queueField]
  | popFront q =>
    obtain ⟨_, rfl⟩ | ⟨_, v, _, rfl⟩ := execPopFront_cases q s t h
    · exact respond_queue ..
    · simp [Instr.queueField]
  | get q index =>
    obtain hgives | ⟨_, rfl⟩ := execGet_onlyGives q index s t h
    · exact hgives.queue_eq _
    · exact raise_queue ..
  | find q v => exact (execFind_onlyGives q v s t h).queue_eq _
  | removeAt q index =>
    obtain ⟨_, Q', _, rfl⟩ | ⟨_, rfl⟩ := execRemoveAt_cases q index s t h
    · simp [Instr.queueField]
    · exact raise_queue ..
  | merge d src => exact absurd rfl (hi d src)
  | copyTo q => exact (execCopyTo_onlyGives q s t h).queue_eq _
  | load q n =>
    obtain ⟨_, rfl⟩ | ⟨_, _, rfl⟩ | ⟨_, _, m, _, rfl⟩ := execLoad_cases q n s t h
    · exact raise_queue ..
    · rfl
    · rw [Instr.queueField, respond_queue, setQueue_queue_other]
      rfl
  | size q => exact (execSize_onlyGives q s t h).queue_eq _

/-- MERGE writes of its source only `size` (43_merge.md R166). -/
theorem execMerge_source (d src : QueueId) (s t : State) (h : exec (.merge d src) s = .next t) :
    (t.queue src).storage = (s.queue src).storage ∧ (t.queue src).begin = (s.queue src).begin := by
  obtain ⟨_, rfl⟩ | ⟨_, _, rfl⟩ | ⟨_, _, A, B, m, _, _, _, rfl⟩ := execMerge_cases d src s t h
  · rw [raise_queue]
    exact ⟨rfl, rfl⟩
  · rw [respond_queue]
    exact ⟨rfl, rfl⟩
  · rw [respond_queue, setQueue_queue_self]
    exact ⟨rfl, rfl⟩

/-! ### Slots under the pops -/

/-- Replacing a queue by one with the same slots changes no slot of either queue. -/
theorem setQueue_storage (s : State) (q r : QueueId) (Q : Queue) (hQ : Q.storage = (s.queue q).storage) :
    ((s.setQueue q Q).queue r).storage = (s.queue r).storage := by
  rw [setQueue_queue]
  split
  next heq => rw [hQ, heq]
  next => rfl

theorem execPopBack_storage (q r : QueueId) (s t : State) (h : exec (.popBack q) s = .next t) :
    (t.queue r).storage = (s.queue r).storage := by
  obtain ⟨_, rfl⟩ | ⟨_, v, _, rfl⟩ := execPopBack_cases q s t h
  · rw [respond_queue]
  · rw [respond_queue]
    exact setQueue_storage s q r _ rfl

theorem execPopFront_storage (q r : QueueId) (s t : State) (h : exec (.popFront q) s = .next t) :
    (t.queue r).storage = (s.queue r).storage := by
  obtain ⟨_, rfl⟩ | ⟨_, v, _, rfl⟩ := execPopFront_cases q s t h
  · rw [respond_queue]
  · rw [respond_queue]
    exact setQueue_storage s q r _ rfl

/-! ### The obligations -/

/-- Settles O44: MERGE apart, a command replaces only the queue of its Q field. -/
theorem otherQueueIsUntouched : Obligations.OtherQueueIsUntouched := by
  intro i s t h
  split
  next d src => exact fun _ => execMerge_source d src s t h
  next hmerge => exact exec_queue_other i s t hmerge h

/-- Settles O45: a read gives to the host or takes the fault of an index out of range; a pop moves registers only. -/
theorem readsHaveNoSideEffects : Obligations.ReadsHaveNoSideEffects := by
  intro q x i s t h
  refine ⟨fun hread => ?_, ?_⟩
  · obtain ⟨_, _, rfl⟩ | ⟨hget, hout, rfl⟩ := exec_read_onlyGives q x i s t hread h
    · exact ⟨⟨rfl, rfl⟩, rfl, rfl, rfl, rfl, rfl, .inl ⟨rfl, rfl⟩⟩
    · exact ⟨⟨rfl, rfl⟩, rfl, rfl, rfl, rfl, rfl, .inr ⟨hget, hout⟩⟩
  · rintro (rfl | rfl)
    · exact ⟨execPopBack_storage q .q0 s t h, execPopBack_storage q .q1 s t h⟩
    · exact ⟨execPopFront_storage q .q0 s t h, execPopFront_storage q .q1 s t h⟩

/-- Settles O47: each form is the modulus of an intermediate below `2 * C`. -/
theorem indexArithmeticForms : Obligations.IndexArithmeticForms := by
  refine ⟨fun C b hC hb => ?_, fun C i Q hb hi => ⟨phys_eq_sub C Q i hb hi, by omega⟩, rfl, rfl⟩
  exact ⟨stepDown_eq C b hb, by omega, by omega, stepUp_eq C b hb, by omega, by omega⟩

end Sys2Proof.Machine

/-! The encoding (30_encoding.md): the decoder read off the fields of a word (R75 to R79), the opcode table (R77), the
illegal words (R82), and the worked lines of R86. -/

namespace Sys2Proof

/-! ### The fields of a command word

A word is eight control bits, over which `decide` runs through all values, and 32 ARG bits, which stay symbolic. -/

/-- RSV, bits 33:32 (30_encoding.md R75). -/
def rsvField (w : CommandWord) : BitVec 2 := w.extractLsb' 32 2

theorem opField_append (h : BitVec 8) (a : Word) : opField (h ++ a) = h.extractLsb' 4 4 :=
  BitVec.extractLsb'_append_eq_of_le (by decide)

theorem rsvField_append (h : BitVec 8) (a : Word) : rsvField (h ++ a) = h.extractLsb' 0 2 :=
  BitVec.extractLsb'_append_eq_of_le (by decide)

theorem queueOfBit_eq_q0_iff (b : Bool) : queueOfBit b = .q0 ↔ b = false := by cases b <;> decide

theorem queueOfBit_bitOfQueue (q : QueueId) : queueOfBit ((bitOfQueue q).getLsbD 0) = q := by cases q <;> rfl

theorem bitOfQueue_toNat (q : QueueId) : (bitOfQueue q).toNat = q.number := by cases q <;> rfl

/-- Control bits whose RSV is 0 are made of OP and the two queue bits. -/
theorem control_eq_append : ∀ h : BitVec 8, h.extractLsb' 0 2 = 0#2 →
    h = h.extractLsb' 4 4 ++ bitOfQueue (queueOfBit (h.getLsbD 3)) ++ bitOfQueue (queueOfBit (h.getLsbD 2)) ++ 0#2 := by
  decide

/-- The masks of R77 keep OP and the low bits that a row asks to be 0. -/
theorem control_and_F7 : ∀ h : BitVec 8, h &&& 0xF7 = h.extractLsb' 4 4 ++ (h.extractLsb' 0 4 &&& 7) := by decide

theorem control_and_F3 : ∀ h : BitVec 8, h &&& 0xF3 = h.extractLsb' 4 4 ++ (h.extractLsb' 0 4 &&& 3) := by decide

theorem low_and_7 : ∀ h : BitVec 8, h.extractLsb' 0 4 &&& 7 = 0#4 ↔ h.getLsbD 2 = false ∧ h.extractLsb' 0 2 = 0 := by
  decide

theorem low_and_3 : ∀ h : BitVec 8, h.extractLsb' 0 4 &&& 3 = 0#4 ↔ h.extractLsb' 0 2 = 0 := by decide

/-- What the mask of a row other than MERGE's asks of the control bits: its OP, and Q2 and RSV 0. -/
theorem controlBits_and_F7 (w : CommandWord) (c : BitVec 4) (p : BitVec 8) (hp : p = c ++ 0#4) :
    controlBits w &&& 0xF7 = p ↔ opField w = c ∧ q2Field w = .q0 ∧ rsvField w = 0 := by
  rw [word_eq_control_arg w, opField_append, q2Field_append, rsvField_append, controlBits_append, hp, control_and_F7,
    append_eq_append_iff, low_and_7, queueOfBit_eq_q0_iff]

/-- What MERGE's mask asks of the control bits: OP, and RSV 0. -/
theorem controlBits_and_F3 (w : CommandWord) (c : BitVec 4) (p : BitVec 8) (hp : p = c ++ 0#4) :
    controlBits w &&& 0xF3 = p ↔ opField w = c ∧ rsvField w = 0 := by
  rw [word_eq_control_arg w, opField_append, rsvField_append, controlBits_append, hp, control_and_F3,
    append_eq_append_iff, low_and_3]

/-- The decoder, by the fields of the word. -/
theorem decode_by_fields (w : CommandWord) : decode w =
    if (opField w = 0x1 ∧ q2Field w = .q0 ∧ rsvField w = 0) ∧ argField w = 0 then some (.init (qField w))
    else if opField w = 0x2 ∧ q2Field w = .q0 ∧ rsvField w = 0 then some (.pushBack (qField w) (argField w))
    else if (opField w = 0x3 ∧ q2Field w = .q0 ∧ rsvField w = 0) ∧ argField w = 0 then some (.popBack (qField w))
    else if (opField w = 0x4 ∧ q2Field w = .q0 ∧ rsvField w = 0) ∧ argField w = 0 then some (.popFront (qField w))
    else if opField w = 0x5 ∧ q2Field w = .q0 ∧ rsvField w = 0 then some (.get (qField w) (argField w))
    else if opField w = 0x6 ∧ q2Field w = .q0 ∧ rsvField w = 0 then some (.find (qField w) (argField w))
    else if opField w = 0x7 ∧ q2Field w = .q0 ∧ rsvField w = 0 then some (.removeAt (qField w) (argField w))
    else if (opField w = 0x8 ∧ rsvField w = 0) ∧ argField w = 0 then some (.merge (qField w) (q2Field w))
    else if (opField w = 0x9 ∧ q2Field w = .q0 ∧ rsvField w = 0) ∧ argField w = 0 then some (.copyTo (qField w))
    else if opField w = 0xA ∧ q2Field w = .q0 ∧ rsvField w = 0 then some (.load (qField w) (argField w))
    else if (opField w = 0xB ∧ q2Field w = .q0 ∧ rsvField w = 0) ∧ argField w = 0 then some (.size (qField w))
    else none := by
  have hw := decode_append (controlBits w) (argField w)
  have hq := qField_append (controlBits w) (argField w)
  have hq2 := q2Field_append (controlBits w) (argField w)
  rw [← word_eq_control_arg] at hw hq hq2
  simp only [hw, ← hq, ← hq2, Bool.and_eq_true, beq_iff_eq, controlBits_and_F7 w 0x1 0x10 rfl,
    controlBits_and_F7 w 0x2 0x20 rfl, controlBits_and_F7 w 0x3 0x30 rfl, controlBits_and_F7 w 0x4 0x40 rfl,
    controlBits_and_F7 w 0x5 0x50 rfl, controlBits_and_F7 w 0x6 0x60 rfl, controlBits_and_F7 w 0x7 0x70 rfl,
    controlBits_and_F3 w 0x8 0x80 rfl, controlBits_and_F7 w 0x9 0x90 rfl, controlBits_and_F7 w 0xA 0xA0 rfl,
    controlBits_and_F7 w 0xB 0xB0 rfl]
  rfl

/-! ### The encoder -/

/-- The fields of control bits that were put together. -/
theorem packedControl_fields : ∀ (op : BitVec 4) (q q2 : BitVec 1),
    (op ++ q ++ q2 ++ 0#2).extractLsb' 4 4 = op ∧ (op ++ q ++ q2 ++ 0#2).getLsbD 3 = q.getLsbD 0 ∧
    (op ++ q ++ q2 ++ 0#2).getLsbD 2 = q2.getLsbD 0 ∧ (op ++ q ++ q2 ++ 0#2).extractLsb' 0 2 = 0#2 := by
  decide

@[simp] theorem opField_encode (i : Instr) : opField (encode i) = i.opcode :=
  (opField_append _ _).trans (packedControl_fields _ _ _).1

@[simp] theorem qField_encode (i : Instr) : qField (encode i) = i.queueField := by
  rw [encode_eq_append, qField_append, encodedControl, (packedControl_fields _ _ _).2.1, queueOfBit_bitOfQueue]

@[simp] theorem q2Field_encode (i : Instr) : q2Field (encode i) = queueOfBit (i.sourceField.getLsbD 0) := by
  rw [encode_eq_append, q2Field_append, encodedControl, (packedControl_fields _ _ _).2.2.1]

@[simp] theorem rsvField_encode (i : Instr) : rsvField (encode i) = 0 :=
  (rsvField_append _ _).trans (packedControl_fields _ _ _).2.2.2

@[simp] theorem argField_encode (i : Instr) : argField (encode i) = i.argument := argField_append _ _

/-- Every field of an encoding is at the command's own value, and those values are one row's (30_encoding.md R76). -/
theorem decode_encode (i : Instr) : decode (encode i) = some i := by
  rw [decode_by_fields, opField_encode, qField_encode, q2Field_encode, rsvField_encode, argField_encode]
  cases i with
  | merge d src =>
    rw [Instr.sourceField, queueOfBit_bitOfQueue]
    simp [Instr.opcode, Instr.queueField, Instr.argument]
  | init _ | pushBack _ _ | popBack _ | popFront _ | get _ _ | find _ _ | removeAt _ _ | copyTo _ | load _ _ | size _ =>
    simp [Instr.opcode, Instr.queueField, Instr.sourceField, Instr.argument, queueOfBit]

/-- A word with the fields of an instruction is its encoding: the fields are the whole word. -/
theorem encode_eq_of_fields (i : Instr) (w : CommandWord) (hop : opField w = i.opcode) (hq : qField w = i.queueField)
    (hq2 : bitOfQueue (q2Field w) = i.sourceField) (hrsv : rsvField w = 0) (harg : argField w = i.argument) :
    encode i = w := by
  have hcontrol : controlBits w = encodedControl i := by
    have hw := word_eq_control_arg w
    rw [hw, rsvField_append] at hrsv
    rw [control_eq_append _ hrsv, ← opField_append _ (argField w), ← qField_append _ (argField w),
      ← q2Field_append _ (argField w), ← hw, hop, hq, hq2, encodedControl]
  rw [encode_eq_append, ← hcontrol, ← harg, ← word_eq_control_arg]

/-- The fields that a row with an operand asks for, and its operand. -/
theorem encode_eq_of_operand (i : Instr) (w : CommandWord)
    (hrow : opField w = i.opcode ∧ q2Field w = .q0 ∧ rsvField w = 0) (hq : qField w = i.queueField)
    (hsrc : i.sourceField = 0) (harg : argField w = i.argument) : encode i = w := by
  obtain ⟨hop, hq2, hrsv⟩ := hrow
  exact encode_eq_of_fields i w hop hq (by rw [hq2, hsrc]; rfl) hrsv harg

/-- The fields that a row without an operand asks for. -/
theorem encode_eq_of_noOperand (i : Instr) (w : CommandWord)
    (hrow : (opField w = i.opcode ∧ q2Field w = .q0 ∧ rsvField w = 0) ∧ argField w = 0) (hq : qField w = i.queueField)
    (hsrc : i.sourceField = 0) (harg : i.argument = 0) : encode i = w :=
  encode_eq_of_operand i w hrow.1 hq hsrc (hrow.2.trans harg.symm)

/-- Whichever row answers, its match and mask fix the fields that the command does not carry (30_encoding.md R77). -/
theorem encode_of_decode (w : CommandWord) (i : Instr) (h : decode w = some i) : encode i = w := by
  rw [decode_by_fields] at h
  obtain ⟨hf, heq⟩ | ⟨_, h⟩ := ite_eq_iff.1 h
  · cases heq
    exact encode_eq_of_noOperand _ w hf rfl rfl rfl
  obtain ⟨hf, heq⟩ | ⟨_, h⟩ := ite_eq_iff.1 h
  · cases heq
    exact encode_eq_of_operand _ w hf rfl rfl rfl
  obtain ⟨hf, heq⟩ | ⟨_, h⟩ := ite_eq_iff.1 h
  · cases heq
    exact encode_eq_of_noOperand _ w hf rfl rfl rfl
  obtain ⟨hf, heq⟩ | ⟨_, h⟩ := ite_eq_iff.1 h
  · cases heq
    exact encode_eq_of_noOperand _ w hf rfl rfl rfl
  obtain ⟨hf, heq⟩ | ⟨_, h⟩ := ite_eq_iff.1 h
  · cases heq
    exact encode_eq_of_operand _ w hf rfl rfl rfl
  obtain ⟨hf, heq⟩ | ⟨_, h⟩ := ite_eq_iff.1 h
  · cases heq
    exact encode_eq_of_operand _ w hf rfl rfl rfl
  obtain ⟨hf, heq⟩ | ⟨_, h⟩ := ite_eq_iff.1 h
  · cases heq
    exact encode_eq_of_operand _ w hf rfl rfl rfl
  obtain ⟨hf, heq⟩ | ⟨_, h⟩ := ite_eq_iff.1 h
  · cases heq
    exact encode_eq_of_fields _ w hf.1.1 rfl rfl hf.1.2 hf.2
  obtain ⟨hf, heq⟩ | ⟨_, h⟩ := ite_eq_iff.1 h
  · cases heq
    exact encode_eq_of_noOperand _ w hf rfl rfl rfl
  obtain ⟨hf, heq⟩ | ⟨_, h⟩ := ite_eq_iff.1 h
  · cases heq
    exact encode_eq_of_operand _ w hf rfl rfl rfl
  obtain ⟨hf, heq⟩ | ⟨_, h⟩ := ite_eq_iff.1 h
  · cases heq
    exact encode_eq_of_noOperand _ w hf rfl rfl rfl
  cases h

/-! ### The word as a number -/

theorem packedControl_toNat : ∀ (op : BitVec 4) (q q2 : BitVec 1),
    (op ++ q ++ q2 ++ 0#2).toNat = op.toNat * 2 ^ 4 + q.toNat * 2 ^ 3 + q2.toNat * 2 ^ 2 := by
  decide

theorem encode_toNat (i : Instr) : (encode i).toNat =
    i.opcode.toNat * 2 ^ 36 + i.queueField.number * 2 ^ 35 + i.sourceField.toNat * 2 ^ 34 + i.argument.toNat := by
  rw [encode_eq_append, BitVec.toNat_append, ← Nat.shiftLeft_add_eq_or_of_lt i.argument.isLt, Nat.shiftLeft_eq,
    encodedControl, packedControl_toNat, bitOfQueue_toNat]
  ring

/-! ### The opcode table -/

theorem find?_cons_eq_ite {α : Type} (p : α → Bool) (a : α) (l : List α) :
    (a :: l).find? p = if p a = true then some a else l.find? p := by
  cases h : p a <;> simp [h]

/-- The decoder answers the command of the first row that takes the word (30_encoding.md R77). -/
theorem decode_row (w : CommandWord) : (decode w).map Instr.row = opcodeTable.find? (·.accepts w) := by
  simp only [decode, opcodeTable, apply_ite (Option.map Instr.row), Option.map_some, Option.map_none, Instr.row,
    find?_cons_eq_ite, List.find?_nil]

/-- Every row fixes OP. -/
theorem opcodeTable_mask : ∀ r ∈ opcodeTable, r.mask &&& 0xF000000000 = 0xF000000000 := by decide

/-- No two rows have the same OP. -/
theorem opcodeTable_opcode_inj : ∀ r ∈ opcodeTable, ∀ r' ∈ opcodeTable,
    r.pattern &&& 0xF000000000 = r'.pattern &&& 0xF000000000 → r = r' := by decide

/-- A row takes only words with its OP. -/
theorem opcode_of_accepts (r : OpcodeRow) (w : CommandWord) (hr : r ∈ opcodeTable) (h : r.accepts w = true) :
    r.pattern &&& 0xF000000000 = w &&& 0xF000000000 := by
  rw [← beq_iff_eq.1 h, BitVec.and_assoc, opcodeTable_mask r hr]

/-- Settles O10: every row fixes OP, no two have the same, and the decoder answers the first row that takes the word. -/
theorem opcodeRowsDecideDecoding : Obligations.OpcodeRowsDecideDecoding := by
  intro w
  have hrow := decode_row w
  refine ⟨fun r hr r' hr' h h' => ?_, ?_, fun i hi => ?_⟩
  · exact opcodeTable_opcode_inj r hr r' hr' ((opcode_of_accepts r w hr h).trans (opcode_of_accepts r' w hr' h').symm)
  · rw [← Option.map_eq_none_iff (f := Instr.row), hrow, List.find?_eq_none]
    simp
  · rw [hi, Option.map_some] at hrow
    exact ⟨List.mem_of_find?_eq_some hrow.symm, List.find?_some (p := fun r : OpcodeRow => r.accepts w) hrow.symm⟩

/-! ### The illegal words -/

/-- No row takes a word exactly under the conditions of R82: `n` is OP, and `P`, `R`, `A` say that Q2, RSV and ARG are
0. -/
theorem no_row_iff_illegal (n : Nat) (P R A : Prop) :
    (¬((n = 1 ∧ P ∧ R) ∧ A) ∧ ¬(n = 2 ∧ P ∧ R) ∧ ¬((n = 3 ∧ P ∧ R) ∧ A) ∧ ¬((n = 4 ∧ P ∧ R) ∧ A) ∧ ¬(n = 5 ∧ P ∧ R) ∧
      ¬(n = 6 ∧ P ∧ R) ∧ ¬(n = 7 ∧ P ∧ R) ∧ ¬((n = 8 ∧ R) ∧ A) ∧ ¬((n = 9 ∧ P ∧ R) ∧ A) ∧ ¬(n = 10 ∧ P ∧ R) ∧
      ¬((n = 11 ∧ P ∧ R) ∧ A)) ↔
    (n = 0 ∨ 12 ≤ n) ∨ ¬R ∨ (¬P ∧ n ≠ 8) ∨ (¬A ∧ (n = 1 ∨ n = 3 ∨ n = 4 ∨ n = 8 ∨ n = 9 ∨ n = 11)) := by
  by_cases hR : R
  · by_cases hP : P
    · by_cases hA : A
      · simp only [hR, hP, hA, and_true, not_true, false_and, or_false]
        omega
      · simp only [hR, hP, hA, and_true, and_false, not_true, not_false_iff, true_and, false_and, false_or]
        omega
    · by_cases hA : A
      · simp only [hR, hP, hA, and_true, and_false, not_true, not_false_iff, true_and, false_and, false_or, or_false]
        omega
      · simp only [hR, hP, hA, and_false, false_and, not_false_iff, true_and, not_true, false_or, true_iff]
        omega
  · simp only [hR, and_false, false_and, not_false_iff, and_true, true_or, or_true]

/-- The illegal words by their fields (30_encoding.md R82). -/
theorem decode_eq_none_iff (w : CommandWord) : decode w = none ↔
    ((opField w).toNat = 0 ∨ 12 ≤ (opField w).toNat) ∨ rsvField w ≠ 0 ∨ (q2Field w ≠ .q0 ∧ (opField w).toNat ≠ 8) ∨
    (argField w ≠ 0 ∧ ((opField w).toNat = 1 ∨ (opField w).toNat = 3 ∨ (opField w).toNat = 4 ∨ (opField w).toNat = 8 ∨
      (opField w).toNat = 9 ∨ (opField w).toNat = 11)) := by
  rw [decode_by_fields, ← no_row_iff_illegal]
  simp only [ite_eq_iff, reduceCtorEq, and_false, false_or, and_true, BitVec.toNat_eq]
  exact .rfl

/-- The all-zero and the all-ones word have an OP that no command has. -/
theorem decode_eq_none_of_opField (w : CommandWord) (h : (opField w).toNat = 0 ∨ 12 ≤ (opField w).toNat) :
    decode w = none :=
  (decode_eq_none_iff w).2 (.inl h)

/-! ### The obligations -/

/-- Settles O7, by the five fields of the encoding. -/
theorem decodeInvertsEncode : Obligations.DecodeInvertsEncode := fun i _ => decode_encode i

/-- Settles O8, over the rows of the opcode table: each fixes or reads every field. -/
theorem encodeInvertsDecode : Obligations.EncodeInvertsDecode := encode_of_decode

/-- Settles O9, from the number of any encoding. -/
theorem encodingPlacesTheFields : Obligations.EncodingPlacesTheFields := by
  intro q r x
  simp [encode_toNat, Instr.opcode, Instr.queueField, Instr.sourceField, Instr.argument, bitOfQueue_toNat]

/-- Settles O11: the fields of a word decide; fault entry does the rest. -/
theorem illegalWordsAreRefusedAndFault : Obligations.IllegalWordsAreRefusedAndFault := by
  refine ⟨fun w => ?_, decode_eq_none_of_opField _ (.inl (by decide)), decode_eq_none_of_opField _ (.inr (by decide)),
    fun w s hw => ⟨s.raise .illegalCommand, ?_, ⟨rfl, rfl⟩, rfl, rfl, rfl, rfl⟩⟩
  · have hq2 : w.getLsbD 34 = true ↔ q2Field w ≠ .q0 := by
      rw [q2Field, ne_eq, queueOfBit_eq_q0_iff, Bool.not_eq_false]
    rw [hq2]
    exact decode_eq_none_iff w
  · rw [Machine.State.accept, hw]

/-- Settles O12, word by word. -/
theorem workedEncodingsDecode : Obligations.WorkedEncodingsDecode := by
  unfold Obligations.WorkedEncodingsDecode
  decide

/-- A response word is its STATUS and its DATA put together (30_encoding.md R80). -/
theorem response_word_fields (r : Machine.Response) :
    r.word.extractLsb' 32 4 = r.status.code ∧ r.word.extractLsb' 0 32 = r.data := by
  rw [Machine.Response.word, BitVec.extractLsb'_append_eq_of_le (Nat.le_refl 32),
    BitVec.extractLsb'_append_eq_of_add_le (Nat.le_refl 32)]
  exact ⟨BitVec.extractLsb'_eq_self, BitVec.extractLsb'_eq_self⟩

/-- Settles O13. -/
theorem responseWordFields : Obligations.ResponseWordFields :=
  ⟨response_word_fields, rfl, rfl, rfl, rfl, rfl, rfl⟩

/-- Settles O56, line by line. -/
theorem assemblerLines : Obligations.AssemblerLines := by
  unfold Obligations.AssemblerLines
  decide

end Sys2Proof

/-! The pin level (30_encoding.md R70 to R74): what one rising edge can be, that every edge keeps the invariants, and
what a command, a COPY_TO and a LOAD look like at the pins at any pace (70_reset_and_hazards.md R241). -/

namespace Sys2Proof.Machine

/-! ### The pins, by the state -/

theorem inTransaction_eq_false_iff (s : State) :
    s.inTransaction = false ↔ s.xact = .idle ∧ s.rsp = [] ∧ s.rd = [] := by
  simp [State.inTransaction, and_assoc]

theorem inTransaction_of_loading (s : State) (h : s.xact ≠ .idle) : s.inTransaction = true :=
  Bool.eq_true_of_not_eq_false fun hf => h ((inTransaction_eq_false_iff s).1 hf).1

theorem inTransaction_of_rsp (s : State) (h : s.rsp ≠ []) : s.inTransaction = true :=
  Bool.eq_true_of_not_eq_false fun hf => h ((inTransaction_eq_false_iff s).1 hf).2.1

theorem cmdReady_iff (p : PinState) :
    p.cmdReady false = true ↔
      p.working = 0 ∧ p.block.fault = false ∧ p.block.xact = .idle ∧ p.block.rsp = [] ∧ p.block.rd = [] := by
  rw [← inTransaction_eq_false_iff]
  simp [PinState.cmdReady]
  tauto

theorem wdReady_iff (p : PinState) : p.wdReady false = true ↔ p.working = 0 ∧ p.block.xact ≠ .idle := by
  simp [PinState.wdReady]

theorem rspOffer_eq_none_iff (p : PinState) : p.rspOffer false = none ↔ p.working ≠ 0 ∨ p.block.rsp = [] := by
  by_cases hw : p.working = 0 <;> simp [PinState.rspOffer, hw]

theorem rdOffer_eq_none_iff (p : PinState) :
    p.rdOffer false = none ↔ p.working ≠ 0 ∨ p.block.rsp ≠ [] ∨ p.block.rd = [] := by
  by_cases hw : p.working = 0
  · by_cases hr : p.block.rsp = [] <;> simp [PinState.rdOffer, hw, hr]
  · simp [PinState.rdOffer, hw]

theorem cmdReady_of_inTransaction (p : PinState) (h : p.block.inTransaction = true) : p.cmdReady false = false := by
  simp [PinState.cmdReady, h]

/-- A block that does not compute offers its oldest response (30_encoding.md R72). -/
theorem rspOffer_at_rest (s : State) :
    PinState.rspOffer { block := s, working := 0 } false = s.rsp.head?.map Response.word :=
  rfl

/-! ### What an edge can be -/

/-- An edge at which the host offers no command. -/
theorem edge_of_no_command (p : PinState) (i : PinsIn) (pace : Nat) (hr : i.rst = false)
    (hp : p.cmdReady false = true) (hc : i.cmd = none) : p.edge i pace = .next p := by
  obtain ⟨hw, _⟩ := (cmdReady_iff p).1 hp
  simp [PinState.edge, hr, hw, hp, hc]

/-- An edge at which a waiting LOAD gets no beat. -/
theorem edge_of_no_beat (p : PinState) (i : PinsIn) (pace : Nat) (hr : i.rst = false) (hw : p.working = 0)
    (hx : p.block.xact ≠ .idle) (hv : i.wd = none) : p.edge i pace = .next p := by
  cases hl : p.block.xact with
  | idle => exact absurd hl hx
  | loading q n taken => simp [PinState.edge, PinState.cmdReady, State.inTransaction, hr, hw, hl, hv]

/-- An edge at which the host does not take the response on offer. -/
theorem edge_of_response_kept (p : PinState) (i : PinsIn) (pace : Nat) (hr : i.rst = false) (hw : p.working = 0)
    (hx : p.block.xact = .idle) (hq : p.block.rsp ≠ []) (hy : i.rspReady = false) : p.edge i pace = .next p := by
  obtain ⟨r, rest, hq⟩ := List.exists_cons_of_ne_nil hq
  simp [PinState.edge, PinState.cmdReady, State.inTransaction, hr, hw, hx, hq, hy]

/-- An edge at which the host does not take the COPY_TO beat on offer. -/
theorem edge_of_read_kept (p : PinState) (i : PinsIn) (pace : Nat) (hr : i.rst = false) (hw : p.working = 0)
    (hx : p.block.xact = .idle) (hq : p.block.rsp = []) (hd : p.block.rd ≠ []) (hy : i.rdReady = false) :
    p.edge i pace = .next p := by
  obtain ⟨v, rest, hd⟩ := List.exists_cons_of_ne_nil hd
  simp [PinState.edge, PinState.cmdReady, State.inTransaction, hr, hw, hx, hq, hd, hy]

/-- An edge of a halted block that has nothing to give (60_exceptions.md R212). -/
theorem edge_of_halted (p : PinState) (i : PinsIn) (pace : Nat) (hr : i.rst = false) (hw : p.working = 0)
    (hf : p.block.fault = true) (hx : p.block.xact = .idle) (hq : p.block.rsp = []) (hd : p.block.rd = []) :
    p.edge i pace = .next p := by
  simp [PinState.edge, PinState.cmdReady, hr, hw, hf, hx, hq, hd]

/-- All that an edge can be: a reset, a cycle of computing, a cycle in which nothing passes, or one word passing on one
of the four channels (30_encoding.md R71). -/
inductive EdgeKind (p : PinState) (i : PinsIn) (pace : Nat) : Prop where
  | reset (hr : i.rst = true) (he : p.edge i pace = .next p.resetEdge)
  | computes (n : Nat) (hw : p.working = n + 1) (he : p.edge i pace = .next { p with working := n })
  | waits (he : p.edge i pace = .next p)
  | command (w : CommandWord) (hp : p.cmdReady false = true) (hc : i.cmd = some w)
      (he : p.edge i pace = settle pace (({ p.block with wd := [] } : State).accept w))
  | beat (q : QueueId) (n : Nat) (taken : List Word) (v : Word) (hx : p.block.xact = .loading q n taken)
      (hv : i.wd = some v) (he : p.edge i pace = settle pace (({ p.block with wd := [v] } : State).takeBeats q n taken))
  | response (r : Response) (rest : List Response) (hx : p.block.xact = .idle) (hq : p.block.rsp = r :: rest)
      (hy : i.rspReady = true) (he : p.edge i pace = settle pace (.next { p.block with rsp := rest }))
  | read (v : Word) (rest : List Word) (hx : p.block.xact = .idle) (hq : p.block.rsp = []) (hd : p.block.rd = v :: rest)
      (hy : i.rdReady = true) (he : p.edge i pace = settle pace (.next { p.block with rd := rest }))

theorem edge_kind (p : PinState) (i : PinsIn) (pace : Nat) : EdgeKind p i pace := by
  cases hr : i.rst with
  | true => exact .reset hr (edge_of_reset p i pace hr)
  | false =>
    cases hw : p.working with
    | succ n => exact .computes n hw (edge_of_working p i pace n hr hw)
    | zero =>
      cases hx : p.block.xact with
      | loading q n taken =>
        cases hv : i.wd with
        | none => exact .waits (edge_of_no_beat p i pace hr hw (by simp [hx]) hv)
        | some v => exact .beat q n taken v hx hv (edge_of_beat p i pace q n taken v hr hw hx hv)
      | idle =>
        cases hq : p.block.rsp with
        | cons r rest =>
          cases hy : i.rspReady with
          | false => exact .waits (edge_of_response_kept p i pace hr hw hx (by simp [hq]) hy)
          | true => exact .response r rest hx hq hy (edge_of_response p i pace r rest hr hw hx hq hy)
        | nil =>
          cases hd : p.block.rd with
          | cons v rest =>
            cases hy : i.rdReady with
            | false => exact .waits (edge_of_read_kept p i pace hr hw hx hq (by simp [hd]) hy)
            | true => exact .read v rest hx hq hd hy (edge_of_read p i pace v rest hr hw hx hq hd hy)
          | nil =>
            cases hf : p.block.fault with
            | true => exact .waits (edge_of_halted p i pace hr hw hf hx hq hd)
            | false =>
              have hp := (cmdReady_iff p).2 ⟨hw, hf, hx, hq, hd⟩
              cases hc : i.cmd with
              | none => exact .waits (edge_of_no_command p i pace hr hp hc)
              | some w => exact .command w hp hc (edge_of_command p i pace w hr hp hc)

/-- What stands after a word has passed. -/
theorem settle_eq_next (pace : Nat) (o : Host.Outcome State Fault Refusal) (p' : PinState)
    (h : settle pace o = .next p') :
    ∃ t, o = .next t ∧ p' = { block := t, working := if t.inTransaction then pace else 0 } := by
  cases o with
  | next t =>
    cases h
    exact ⟨t, rfl, rfl⟩
  | fault r => cases h
  | refused r => cases h

/-- Inside a transaction the block computes for as long as its pace says. -/
theorem settle_of_inTransaction (pace : Nat) (t : State) (h : t.inTransaction = true) :
    settle pace (.next t) = .next { block := t, working := pace } := by
  simp [settle, h]

/-! ### What a word that passes leaves -/

theorem xactAfter_of_operands (s : State) (i : Instr) (hx : s.xact = .idle) (hV : s.hasOperands i = true) :
    xactAfter s.capacity s.wd s.xact i = .idle := by
  cases i with
  | load q n =>
    simp only [State.hasOperands, Bool.or_eq_true, decide_eq_true_eq] at hV
    rw [xactAfter, hx]
    split
    · rfl
    · exact if_neg (by omega)
  | init _ | pushBack _ _ | popBack _ | popFront _ | get _ _ | find _ _ | removeAt _ _ | merge _ _ | copyTo _
  | size _ =>
    exact hx

/-- A command given to a block at rest is answered by one response, unless it is a LOAD that waits for its beats
(60_exceptions.md R214, 40_construct.md R106). -/
theorem accept_at_rest (w : CommandWord) (s t : State) (hs : s.Wf) (hx : s.xact = .idle) (hwd : s.wd = [])
    (h : s.accept w = .next t) :
    (∃ q n, decode w = some (.load q n) ∧ t = { s with xact := .loading q n.toNat [] }) ∨
    (t.xact = .idle ∧ ∃ r, t.rsp = s.rsp ++ [r]) := by
  unfold State.accept at h
  split at h
  · cases h
    exact .inr ⟨hx, _, rfl⟩
  next i hi =>
    cases hV : s.hasOperands i with
    | true =>
      obtain ⟨x, hholds⟩ := exists_holds s hs
      refine .inr ⟨?_, _, (exec_shows i hs hholds hV h).rsp⟩
      rw [(exec_transport i s t h).2, xactAfter_of_operands s i hx hV]
    | false =>
      obtain ⟨q, n, rfl, hle, hmissing⟩ := (hasOperands_eq_false s i).1 hV
      rw [exec_load_of_le q n s hle, takeBeats_of_missing q n.toNat [] s (by simpa using hmissing)] at h
      cases h
      exact .inl ⟨q, n, hi, by simp [hwd]⟩

/-- A LOAD that takes beats gives its one response or goes on waiting, and changes no other channel. -/
theorem takeBeats_channels (q : QueueId) (n : Nat) (taken : List Word) (s t : State)
    (h : s.takeBeats q n taken = .next t) :
    t.rd = s.rd ∧ ((t.xact = .idle ∧ ∃ r, t.rsp = s.rsp ++ [r]) ∨ t.rsp = s.rsp) := by
  unfold State.takeBeats at h
  simp only at h
  split at h
  · cases h
    exact ⟨rfl, .inr rfl⟩
  · obtain ⟨m, _, hm⟩ := orSlotFault_eq_next _ _ _ h
    cases hm
    exact ⟨by simp, .inl ⟨by simp, { status := .ok, data := 0 }, by simp⟩⟩

/-- A waiting LOAD has not faulted (40_construct.md R105). -/
theorem loading_fault (s : State) (hs : s.Wf) (q : QueueId) (n : Nat) (taken : List Word)
    (hx : s.xact = .loading q n taken) : s.fault = false := by
  obtain ⟨_, _, _, _, hxact⟩ := hs
  rw [hx] at hxact
  simp only [Transaction.wf, Bool.and_eq_true, Bool.not_eq_true'] at hxact
  exact hxact.2

/-! ### Every edge keeps the invariants -/

/-- The state after a word has passed keeps the invariants of the pin level when its block does. -/
theorem settled_wf (t : State) (pace : Nat) (ht : t.Wf) (hone : t.rsp.length ≤ 1)
    (hload : t.xact ≠ .idle → t.rsp = [] ∧ t.rd = []) :
    PinState.Wf { block := t, working := if t.inTransaction then pace else 0 } := by
  refine ⟨ht, hone, hload, ?_⟩
  cases h : t.inTransaction <;> simp

theorem resetEdge_wf (p : PinState) (hp : p.Wf) : p.resetEdge.Wf := by
  obtain ⟨hs, _⟩ := hp
  exact ⟨applyReset_wf p.block hs, Nat.zero_le 1, fun _ => ⟨rfl, rfl⟩, fun h => absurd rfl h⟩

theorem edge_wf (p p' : PinState) (i : PinsIn) (pace : Nat) (hp : p.Wf) (h : p.edge i pace = .next p') : p'.Wf := by
  have ⟨hs, hone, hload, hwork⟩ := hp
  cases edge_kind p i pace with
  | reset _ he =>
    cases he.symm.trans h
    exact resetEdge_wf p hp
  | computes n hw he =>
    cases he.symm.trans h
    exact ⟨hs, hone, hload, fun _ => hwork (by simp [hw])⟩
  | waits he =>
    cases he.symm.trans h
    exact hp
  | command w hready _ he =>
    obtain ⟨_, hf, hx, hq, hd⟩ := (cmdReady_iff p).1 hready
    obtain ⟨t, ht, rfl⟩ := settle_eq_next pace _ p' (he.symm.trans h)
    have htwf := accept_wf w { p.block with wd := [] } t hs hf hx ht
    obtain ⟨q, n, _, rfl⟩ | ⟨htx, r, hr⟩ := accept_at_rest w { p.block with wd := [] } t hs hx rfl ht
    · exact settled_wf _ pace htwf hone fun _ => ⟨hq, hd⟩
    · exact settled_wf t pace htwf (by simp [hr, hq]) fun hne => absurd htx hne
  | beat q n taken v hx _ he =>
    obtain ⟨t, ht, rfl⟩ := settle_eq_next pace _ p' (he.symm.trans h)
    obtain ⟨hn, hlt⟩ := loading_wf p.block hs q n taken hx
    obtain ⟨hq, hd⟩ := hload (by simp [hx])
    have hf := loading_fault p.block hs q n taken hx
    have htwf := takeBeats_wf q n taken { p.block with wd := [v] } t hs hf hn hlt.le ht
    obtain ⟨hrd, ⟨htx, r, hr⟩ | hr⟩ := takeBeats_channels q n taken _ t ht
    · exact settled_wf t pace htwf (by simp [hr, hq]) fun hne => absurd htx hne
    · exact settled_wf t pace htwf (by simp [hr, hq]) fun _ => ⟨hr.trans hq, hrd.trans hd⟩
  | response r rest hx hq _ he =>
    obtain ⟨t, ht, rfl⟩ := settle_eq_next pace _ p' (he.symm.trans h)
    cases ht
    rw [hq] at hone
    exact settled_wf _ pace hs (Nat.le_of_succ_le hone) fun hne => absurd hx hne
  | read v rest hx _ _ _ he =>
    obtain ⟨t, ht, rfl⟩ := settle_eq_next pace _ p' (he.symm.trans h)
    cases ht
    exact settled_wf _ pace hs hone fun hne => absurd hx hne

/-! ### Runs of edges at a given pace -/

/-- While the block computes, an edge without reset takes one cycle off and changes nothing else, whatever the pins. -/
theorem feed_computing (js : List (PinsIn × Nat)) (hjs : ∀ j ∈ js, j.1.rst = false) :
    ∀ p : PinState, js.length ≤ p.working → p.feed js = .next { p with working := p.working - js.length } := by
  induction js with
  | nil => exact fun p _ => rfl
  | cons j js ih =>
    intro p hle
    rw [List.length_cons] at hle
    have hw : p.working = (p.working - 1) + 1 := by omega
    rw [PinState.feed, edge_of_working p j.1 j.2 _ (hjs j List.mem_cons_self) hw]
    have hrest := ih (fun k hk => hjs k (List.mem_cons_of_mem j hk)) { p with working := p.working - 1 }
      (by simp; omega)
    simpa [Nat.sub_sub, Nat.add_comm] using hrest

/-- With no pin asserted a block that does not compute keeps all its state. -/
theorem edge_quiet (p : PinState) (pace : Nat) (hw : p.working = 0) : p.edge PinsIn.quiet pace = .next p := by
  cases edge_kind p PinsIn.quiet pace with
  | reset hr _ => cases hr
  | computes n hn _ => simp [hw] at hn
  | waits he => exact he
  | command w _ hc _ => cases hc
  | beat q n taken v _ hv _ => cases hv
  | response r rest _ _ hy _ => cases hy
  | read v rest _ _ _ hy _ => cases hy

/-- Edges without input let the block finish computing, and then change nothing. -/
theorem feed_quiet : ∀ (n : Nat) (p : PinState), p.working ≤ n →
    p.feed (List.replicate n (PinsIn.quiet, 0)) = .next { p with working := 0 }
  | 0, ⟨block, 0⟩, _ => rfl
  | n + 1, ⟨block, 0⟩, _ => by
    rw [List.replicate_succ, PinState.feed, edge_quiet _ _ rfl]
    exact feed_quiet n ⟨block, 0⟩ (Nat.zero_le n)
  | n + 1, ⟨block, k + 1⟩, h => by
    rw [List.replicate_succ, PinState.feed, edge_of_working _ _ _ k rfl rfl]
    exact feed_quiet n ⟨block, k⟩ (Nat.le_of_succ_le_succ h)

/-- A word that passes, with the cycles that the block then computes: what follows meets its next state at rest. -/
theorem feed_paced_cons (p : PinState) (t : State) (i : PinsIn) (pace : Nat) (is : List (PinsIn × Nat))
    (he : p.edge i pace = settle pace (.next t)) :
    p.feed (paced ((i, pace) :: is)) = PinState.feed { block := t, working := 0 } (paced is) := by
  have hquiet := feed_quiet pace { block := t, working := if t.inTransaction then pace else 0 } (by split <;> simp)
  rw [paced, List.flatMap_cons, List.cons_append, PinState.feed, he]
  exact feed_append _ _ _ _ hquiet

theorem accept_encode (i : Instr) (s : State) : s.accept (encode i) = exec i s := by
  rw [State.accept, decode_encode]

/-! ### COPY_TO at the pins -/

/-- The block `s` with these responses and COPY_TO beats to give, and no data beat offered to it. -/
def State.giving (s : State) (rsp : List Response) (rd : List Word) : State := { s with wd := [], rsp := rsp, rd := rd }

theorem giving_of_rsp_nil (s : State) (rd : List Word) (hq : s.rsp = []) :
    s.giving [] rd = { s with rd := rd, wd := [] } := by
  rw [State.giving, hq]

/-- The response on offer, the first of those to give (30_encoding.md R72). -/
theorem giving_pins_rsp (s : State) (rsp : List Response) (rd : List Word) :
    (PinState.pins { block := s.giving rsp rd, working := 0 } false).rsp = rsp.head?.map Response.word :=
  rfl

/-- With no response to give, the beat on offer is the first of those to give (30_encoding.md R74). -/
theorem giving_pins_rd (s : State) (rd : List Word) :
    (PinState.pins { block := s.giving [] rd, working := 0 } false).rd = rd.head? :=
  rfl

/-- While a response is to be given no beat is on offer (30_encoding.md R74). -/
theorem giving_pins_rd_eq_none (s : State) (r : Response) (rsp : List Response) (rd : List Word) :
    (PinState.pins { block := s.giving (r :: rsp) rd, working := 0 } false).rd = none :=
  rfl

/-- COPY_TO from a block that has nothing to give yet (44_inspect.md R180). -/
theorem execCopyTo_at_rest (q : QueueId) (s : State) (A : List Word) (hq : s.rsp = []) (hd : s.rd = [])
    (hA : s.seq q = some A) :
    exec (.copyTo q) { s with wd := [] } =
      .next (s.giving [{ status := .ok, data := BitVec.ofNat 32 A.length }] A) := by
  have hseq : (State.queue { s with wd := [] } q).seq s.capacity = some A := by cases q <;> exact hA
  rw [exec, execCopyTo, hseq, ← seq_length hseq]
  simp [State.giving, State.respond, State.emit, hq, hd]

/-- The beats of a COPY_TO pass in order, at any pace (30_encoding.md R74). -/
theorem feed_reads (s : State) (hx : s.xact = .idle) : ∀ (paces : List Nat) (L : List Word), paces.length ≤ L.length →
    PinState.feed { block := s.giving [] L, working := 0 }
        (paced (paces.map fun k => ({ PinsIn.quiet with rdReady := true }, k))) =
      .next { block := s.giving [] (L.drop paces.length), working := 0 }
  | [], _, _ => rfl
  | k :: paces, v :: L, h => by
    rw [List.map_cons, feed_paced_cons _ (s.giving [] L) _ _ _ (edge_of_read _ _ k v L rfl rfl hx rfl rfl rfl)]
    exact feed_reads s hx paces L (Nat.le_of_succ_le_succ h)

/-! ### LOAD at the pins -/

theorem takeBeats_xact (x : Transaction) (q : QueueId) (n : Nat) (taken : List Word) (s : State) :
    ({ s with xact := x } : State).takeBeats q n taken = s.takeBeats q n taken := by
  unfold State.takeBeats
  rfl

/-- Beats fed one by one leave what they leave at once (40_construct.md R106). -/
theorem feed_beats (q : QueueId) (n : Nat) (s t : State) (hs : s.Wf) (hn : n ≤ s.capacity) :
    ∀ (V : List (Word × Nat)) (taken : List Word) (u : State), taken.length + V.length = n →
      ({ s with wd := [] } : State).takeBeats q n taken = .next u →
      ({ s with wd := V.map Prod.fst } : State).takeBeats q n taken = .next t →
      PinState.feed { block := u, working := 0 }
        (paced (V.map fun v => ({ PinsIn.quiet with wd := some v.1 }, v.2))) = .next { block := t, working := 0 } := by
  intro V
  induction V with
  | nil =>
    intro taken u _ hu ht
    cases hu.symm.trans ht
    rfl
  | cons v V ih =>
    intro taken u hlen hu ht
    rw [List.length_cons] at hlen
    obtain ⟨u', hu'⟩ := takeBeats_total q n (taken ++ [v.1]) { s with wd := [] } hs hn (by simp; omega)
    have hmore := takeBeats_append q n taken [v.1] [] s (by simp; omega)
    have hrest := takeBeats_append q n taken [v.1] (V.map Prod.fst) s (by simp; omega)
    rw [takeBeats_of_missing q n taken _ (by simp; omega)] at hu
    cases hu
    have hedge : PinState.edge { PinsIn.quiet with wd := some v.1 } v.2
        { block := { s with wd := [], xact := .loading q n (taken ++ []) }, working := 0 } = settle v.2 (.next u') := by
      rw [edge_of_beat _ _ _ q n (taken ++ []) v.1 rfl rfl rfl rfl, List.append_nil, ← hu', hmore]
      exact congrArg _ (takeBeats_xact _ q n taken { s with wd := [v.1] })
    rw [List.map_cons, feed_paced_cons _ u' _ _ _ hedge]
    exact ih (taken ++ [v.1]) u' (by simp; omega) hu' (hrest.trans ht)

/-! ### The obligations -/

/-- Settles O51, over the kinds of edge. -/
theorem edgeKeepsInvariants : Obligations.EdgeKeepsInvariants := edge_wf

/-- Settles O52: each channel is open in states that no other is. -/
theorem oneChannelAtATime : Obligations.OneChannelAtATime := by
  rintro p ⟨_, _, hload, _⟩
  refine ⟨⟨rfl, rfl, rfl, rfl⟩, fun hc => ?_, fun hwd => ?_, fun hrsp => ?_⟩
  · obtain ⟨_, hf, hx, hq, hd⟩ := (cmdReady_iff p).1 hc
    exact ⟨hf, (inTransaction_eq_false_iff _).2 ⟨hx, hq, hd⟩, Bool.eq_false_iff.2 fun h => ((wdReady_iff p).1 h).2 hx,
      (rspOffer_eq_none_iff p).2 (.inr hq), (rdOffer_eq_none_iff p).2 (.inr (.inr hd))⟩
  · obtain ⟨hq, hd⟩ := hload ((wdReady_iff p).1 hwd).2
    exact ⟨(rspOffer_eq_none_iff p).2 (.inr hq), (rdOffer_eq_none_iff p).2 (.inr (.inr hd))⟩
  · have ⟨_, hq⟩ := not_or.1 (mt (rspOffer_eq_none_iff p).2 hrsp)
    exact (rdOffer_eq_none_iff p).2 (.inr (.inl hq))

/-- Settles O53, channel by channel. -/
theorem offersWaitForTheHost : Obligations.OffersWaitForTheHost := by
  rintro p i pace ⟨_, _, hload, _⟩ hr (⟨hrsp, hy⟩ | ⟨hrd, hy⟩ | ⟨hwd, hv⟩ | ⟨hc, hi⟩)
  · have ⟨hw, hq⟩ := not_or.1 (mt (rspOffer_eq_none_iff p).2 hrsp)
    have hx : p.block.xact = .idle := by_contra fun hx => hq (hload hx).1
    exact edge_of_response_kept p i pace hr (not_not.1 hw) hx hq hy
  · obtain ⟨hw, h⟩ := not_or.1 (mt (rdOffer_eq_none_iff p).2 hrd)
    obtain ⟨hq, hd⟩ := not_or.1 h
    have hx : p.block.xact = .idle := by_contra fun hx => hd (hload hx).2
    exact edge_of_read_kept p i pace hr (not_not.1 hw) hx (not_not.1 hq) hd hy
  · obtain ⟨hw, hx⟩ := (wdReady_iff p).1 hwd
    exact edge_of_no_beat p i pace hr hw hx hv
  · exact edge_of_no_command p i pace hr hc hi

/-- Settles O54: the command, its response and its beats are each one word that passes, and the pins between them show
the next to pass. -/
theorem copyToTransport : Obligations.CopyToTransport := by
  intro p q A pace pace' _ hready hA
  obtain ⟨_, hf, hx, hq, hd⟩ := (cmdReady_iff p).1 hready
  have hcommand : p.edge { PinsIn.quiet with cmd := some (encode (.copyTo q)) } pace =
      settle pace (.next (p.block.giving [{ status := .ok, data := BitVec.ofNat 32 A.length }] A)) := by
    rw [edge_of_command p _ pace _ rfl hready rfl, accept_encode, execCopyTo_at_rest q p.block A hq hd hA]
  have hresponse := edge_of_response
    { block := p.block.giving [{ status := .ok, data := BitVec.ofNat 32 A.length }] A, working := 0 }
    { PinsIn.quiet with rspReady := true } pace' _ [] rfl rfl hx rfl rfl
  refine ⟨_, _, feed_paced_cons p _ _ pace [] hcommand, giving_pins_rsp ..,
    giving_pins_rd_eq_none ..,
    feed_paced_cons _ (p.block.giving [] A) _ pace' [] hresponse, giving_pins_rsp .., giving_pins_rd ..,
    giving_of_rsp_nil p.block A hq, fun paces hle => ?_⟩
  refine ⟨_, feed_reads p.block hx paces A hle, (giving_pins_rd ..).trans List.head?_drop, ?_,
    giving_of_rsp_nil p.block _ hq⟩
  refine (cmdReady_iff _).trans ?_
  simp only [State.giving, hf, hx, List.drop_eq_nil_iff, true_and]
  omega

/-- Settles O55: the command word leaves a LOAD that has had no beat, and each beat one that has had one more. -/
theorem pinLevelLoadIsTheTransaction : Obligations.PinLevelLoadIsTheTransaction := by
  intro p q length pace V hp hready hle hlen
  have hs := hp.1
  obtain ⟨u, hu⟩ := takeBeats_total q length.toNat [] { p.block with wd := [] } hs hle (Nat.zero_le _)
  obtain ⟨t, ht⟩ := takeBeats_total q length.toNat [] { p.block with wd := V.map Prod.fst } hs hle (Nat.zero_le _)
  have hedge : p.edge { PinsIn.quiet with cmd := some (encode (.load q length)) } pace = settle pace (.next u) := by
    rw [edge_of_command p _ pace _ rfl hready rfl, accept_encode,
      exec_load_of_le q length { p.block with wd := [] } hle, hu]
  refine ⟨t, (exec_load_of_le q length { p.block with wd := V.map Prod.fst } hle).trans ht, ?_⟩
  rw [feed_paced_cons p u _ pace _ hedge]
  exact feed_beats q length.toNat p.block t hs hle V [] u (by simpa using hlen) hu ht

/-- Settles O57: a word accepted at rest leaves a waiting LOAD or one response; computing keeps it and one edge takes
it. -/
theorem commandsAtThePins : Obligations.CommandsAtThePins := by
  intro p i w pace hp hready hr hc
  obtain ⟨_, hf, hx, hq, hd⟩ := (cmdReady_iff p).1 hready
  obtain ⟨t, ht⟩ := accept_total w { p.block with wd := [] } hp.1
  have hedge := edge_of_command p i pace w hr hready hc
  rw [ht] at hedge
  obtain ⟨q, n, hw, rfl⟩ | ⟨htx, r, hrsp⟩ := accept_at_rest w { p.block with wd := [] } t hp.1 hx rfl ht
  · refine ⟨_, ht, hedge.trans (settle_of_inTransaction pace _ (inTransaction_of_loading _ nofun)), .inl ?_⟩
    exact ⟨q, n.toNat, rfl, by rw [hw, BitVec.ofNat_toNat, BitVec.setWidth_eq], hq, hd⟩
  · have hrsp : t.rsp = [r] := by simpa [hq] using hrsp
    have hin := inTransaction_of_rsp t (by simp [hrsp])
    refine ⟨t, ht, hedge.trans (settle_of_inTransaction pace t hin), .inr ⟨htx, r, hrsp, ?_, ?_⟩⟩
    · intro js hjs hlt
      exact ⟨_, feed_computing js hjs { block := t, working := pace } hlt.le, rfl,
        (rspOffer_eq_none_iff _).2 (.inl (Nat.sub_ne_zero_of_lt hlt)), cmdReady_of_inTransaction _ hin⟩
    · rintro js hjs rfl
      have hfeed := feed_computing js hjs { block := t, working := js.length } le_rfl
      rw [Nat.sub_self] at hfeed
      refine ⟨_, hfeed, rfl, (rspOffer_at_rest t).trans (by rw [hrsp]; rfl), cmdReady_of_inTransaction _ hin, ?_⟩
      intro j pace' hjr hy
      refine ⟨_, edge_of_response _ j pace' r [] hjr rfl htx hrsp hy, rfl, (rspOffer_eq_none_iff _).2 (.inr rfl), ?_⟩
      intro hrd
      have hidle : State.inTransaction { t with rsp := [] } = false := (inTransaction_eq_false_iff _).2 ⟨htx, rfl, hrd⟩
      refine (cmdReady_iff _).trans ?_
      simp only [hidle]
      simp [htx, hrd]

end Sys2Proof.Machine

/-! The construction commands (40_construct.md): what INIT leaves of a queue (R100, R101), what a LOAD leaves that has its
beats (R104, R107), and how a LOAD without them waits and goes on (R106). -/

namespace Sys2Proof.Machine

/-! ### A queue replaced and answered -/

/-- Of the control state and the wd channel a command changes nothing when it replaces one queue and answers. -/
theorem setQueue_respond_control (s : State) (q : QueueId) (Q : Queue) (status : Status) (data : Word) :
    SameControl s ((s.setQueue q Q).respond status data) :=
  ⟨setQueue_capacity .., setQueue_fault .., setQueue_faultCause .., setQueue_xact .., setQueue_resets ..,
    setQueue_host ..⟩

theorem setQueue_respond_answered (s : State) (q : QueueId) (Q : Queue) (status : Status) (data : Word) :
    Answered s ((s.setQueue q Q).respond status data) status data :=
  ⟨by simp, by simp⟩

theorem setQueue_respond_queue_self (s : State) (q : QueueId) (Q : Queue) (status : Status) (data : Word) :
    ((s.setQueue q Q).respond status data).queue q = Q := by
  rw [respond_queue, setQueue_queue_self]

theorem setQueue_respond_queue_other (s : State) (q : QueueId) (Q : Queue) (status : Status) (data : Word) :
    ((s.setQueue q Q).respond status data).queue q.other = s.queue q.other := by
  rw [respond_queue, setQueue_queue_other]

theorem setQueue_respond_seq_self (s : State) (q : QueueId) (Q : Queue) (status : Status) (data : Word) :
    ((s.setQueue q Q).respond status data).seq q = Q.seq s.capacity := by
  rw [respond_seq, setQueue_seq, if_pos rfl]

/-! ### A LOAD with its beats -/

/-- A run written from slot 0 on is read at its own slots, and leaves the others (40_construct.md R107). -/
theorem read_writeRun_zero {m m' : Memory} {vs : List Word} (h : Memory.writeRun m 0 vs = some m') (p : Nat) :
    Memory.read m' p = if p < vs.length then vs[p]? else Memory.read m p := by
  obtain ⟨_, hread⟩ := writeRun_eq_some vs m m' 0 h
  simpa using hread p

/-- A LOAD of legal length whose beats are at hand writes them from slot 0 on (40_construct.md R104). -/
theorem exec_load_of_beats (q : QueueId) (length : Word) (s : State) (hs : s.Wf) (hle : length.toNat ≤ s.capacity)
    (hbeats : length.toNat ≤ s.wd.length) :
    ∃ m, Memory.writeRun (s.queue q).storage 0 (s.wd.take length.toNat) = some m ∧
      exec (.load q length) s = .next
        ((({ s with wd := s.wd.drop length.toNat, xact := .idle } : State).setQueue q
          { storage := m, begin := 0, size := length.toNat }).respond .ok 0) := by
  rw [exec_load_of_le q length s hle]
  exact takeBeats_of_enough q length.toNat [] s hs hle (Nat.zero_le _) (by simpa using hbeats)

/-! ### A LOAD that waits -/

/-- A LOAD of legal length without all its beats waits with those it has (40_construct.md R106). -/
theorem exec_load_of_missing (q : QueueId) (length : Word) (s : State) (hle : length.toNat ≤ s.capacity)
    (hmissing : s.wd.length < length.toNat) :
    exec (.load q length) s = .next { s with xact := .loading q length.toNat s.wd, wd := [] } := by
  rw [exec_load_of_le q length s hle]
  exact takeBeats_of_missing q length.toNat [] s (by simpa using hmissing)

/-- While a LOAD waits, a step without reset goes on with it and takes no command. -/
theorem step_of_loading (s : State) (q : QueueId) (n : Nat) (taken : List Word) (hf : s.fault = false)
    (hr : ∀ rest, s.host ≠ .reset :: rest) (hx : s.xact = .loading q n taken) : step s = s.takeBeats q n taken := by
  obtain ⟨rest, hh, _⟩ | ⟨_, hf', _⟩ | ⟨_, _, hrun⟩ := step_eq s
  · exact absurd hh (hr rest)
  · simp [hf] at hf'
  · obtain ⟨q', n', taken', hx', h⟩ | ⟨hi, _⟩ | ⟨hi, _⟩ | ⟨hi, _⟩ := hrun
    · cases hx.symm.trans hx'
      exact h
    all_goals cases hx.symm.trans hi

/-- A waiting LOAD to which no beat comes stays as it is (70_reset_and_hazards.md R236). -/
theorem takeBeats_of_no_beat (s : State) (q : QueueId) (n : Nat) (taken : List Word) (hlt : taken.length < n)
    (hx : s.xact = .loading q n taken) (hwd : s.wd = []) : s.takeBeats q n taken = .next s := by
  rw [takeBeats_of_missing q n taken s (by simpa [hwd] using hlt), hwd, List.append_nil, ← hx, ← hwd]

/-- A word the host presents with its operands leaves no LOAD waiting. -/
theorem accept_xact_of_presents (w : CommandWord) (s t : State) (hx : s.xact = .idle) (hp : s.presents w = true)
    (h : s.accept w = .next t) : t.xact = .idle := by
  unfold State.accept at h
  split at h
  · cases h
    exact hx
  next i hi =>
    have hV : s.hasOperands i = true := (presents_of_decode s w i hi).symm.trans hp
    exact (exec_transport i s t h).2.trans (xactAfter_of_operands s i hx hV)

/-- No step enters the wait of a LOAD: the transaction level has none (40_construct.md R106, log 6). -/
theorem step_xact_of_idle (s t : State) (hx : s.xact = .idle) (h : step s = .next t) : t.xact = .idle := by
  obtain ⟨_, _, hs⟩ | ⟨_, _, hs⟩ | ⟨_, _, hrun⟩ := step_eq s
  · cases hs.symm.trans h
    rfl
  · cases hs.symm.trans h
  · obtain ⟨q, n, taken, hl, _⟩ | ⟨_, w, rest, _, hp, hs⟩ | ⟨_, _, _, _, _, hs⟩ | ⟨_, _, hs⟩ := hrun
    · cases hx.symm.trans hl
    · exact accept_xact_of_presents w { s with host := rest } t hx hp (hs.symm.trans h)
    · cases hs.symm.trans h
      exact hx
    · cases hs.symm.trans h
      exact hx

/-! ### The obligations -/

/-- Settles O22: the beats are one run written from slot 0 on, where the queue then begins. -/
theorem loadReplacesContents : Obligations.LoadReplacesContents := by
  intro q length s hs hx hle hbeats
  obtain ⟨m, hm, ht⟩ := exec_load_of_beats q length s hs hle hbeats
  have hlen : (s.wd.take length.toNat).length = length.toNat := List.length_take_of_le hbeats
  have hread := read_writeRun_zero hm
  have hseq := seq_writeRun (C := s.capacity) (hlen.trans_le hle) hm
  rw [hlen] at hseq hread
  obtain ⟨hcap, hfault, hcause, hxact, hresets, hhost⟩ := setQueue_respond_control
    { s with wd := s.wd.drop length.toNat, xact := .idle } q { storage := m, begin := 0, size := length.toNat } .ok 0
  refine ⟨_, ht, ?_⟩
  rw [setQueue_respond_queue_self, setQueue_respond_queue_other, setQueue_respond_seq_self, hcap]
  refine ⟨rfl, rfl, fun k hk => ?_, fun p hp => ?_, hseq, rfl, rfl, rfl,
    ⟨hcap, hfault, hcause, hxact.trans hx.symm, hresets, hhost⟩, setQueue_wd .., setQueue_respond_answered ..⟩
  · rw [hread, if_pos hk, List.getElem?_take_of_lt hk]
  · rw [setQueue_respond_queue_self, hread, if_neg hp]

/-- Settles O24: a LOAD that misses beats only takes those that come, and no word that is presented misses any. -/
theorem loadWaitsForItsBeats : Obligations.LoadWaitsForItsBeats := by
  refine ⟨exec_load_of_missing, fun s q n taken hs hx hr hwd => ?_, step_xact_of_idle⟩
  obtain ⟨_, hlt⟩ := loading_wf s hs q n taken hx
  rw [step_of_loading s q n taken (loading_fault s hs q n taken hx) hr hx]
  exact takeBeats_of_no_beat s q n taken hlt hx hwd

/-- Settles O25: both are the same LOAD that takes beats, with the first piece taken or still to come. -/
theorem loadInPiecesIsLoadAtOnce : Obligations.LoadInPiecesIsLoadAtOnce := by
  intro q length s V₁ V₂ hf hr hle hlt
  refine ⟨_, exec_load_of_missing q length { s with wd := V₁ } hle hlt, rfl, ?_⟩
  calc step { s with xact := .loading q length.toNat V₁, wd := V₂ }
      = State.takeBeats q length.toNat V₁ { s with xact := .loading q length.toNat V₁, wd := V₂ } :=
        step_of_loading _ q length.toNat V₁ hf hr rfl
    _ = State.takeBeats q length.toNat V₁ { s with wd := V₂ } :=
        takeBeats_xact _ q length.toNat V₁ { s with wd := V₂ }
    _ = State.takeBeats q length.toNat [] { s with wd := V₁ ++ V₂ } :=
        takeBeats_append q length.toNat [] V₁ V₂ s (by simpa using hlt.le)
    _ = exec (.load q length) { s with wd := V₁ ++ V₂ } :=
        (exec_load_of_le q length { s with wd := V₁ ++ V₂ } hle).symm

/-- Settles O21: the queue keeps its storage, and with size 0 has the empty sequence. -/
theorem initEmptiesQueue : Obligations.InitEmptiesQueue := by
  intro q s hs
  have hnotFull : Queue.isFull s.capacity { s.queue q with begin := 0, size := 0 } = false :=
    beq_eq_false_iff_ne.2 (wf_capacity_pos s hs).ne
  refine ⟨_, rfl, ?_⟩
  rw [setQueue_respond_queue_self, setQueue_respond_queue_other, setQueue_respond_seq_self, respond_capacity,
    setQueue_capacity]
  refine ⟨rfl, rfl, fun p _ => ?_, seq_of_size_zero _ _ rfl, rfl, hnotFull, rfl, setQueue_respond_control ..,
    setQueue_wd .., setQueue_respond_answered ..⟩
  rw [setQueue_respond_queue_self]

end Sys2Proof.Machine

/-! The end commands (41_push_pop.md): PUSH_BACK (R120 to R122), POP_BACK (R124, R125), POP_FRONT (R128, R129), and what
a PUSH_BACK and a pop do one after the other (R126, R131). -/

namespace Sys2Proof.Machine

/-! ### The frame of an end command -/

/-- From `s` to `t` nothing changed but queue `q` and what was given to the host. -/
structure ChangesOnlyQueue (q : QueueId) (s t : State) : Prop where
  other : t.queue q.other = s.queue q.other
  control : SameControl s t
  wd : t.wd = s.wd

theorem respond_changesOnlyQueue (q : QueueId) (s : State) (status : Status) (data : Word) :
    ChangesOnlyQueue q s (s.respond status data) :=
  ⟨respond_queue .., ⟨rfl, rfl, rfl, rfl, rfl, rfl⟩, rfl⟩

theorem setQueue_respond_changesOnlyQueue (q : QueueId) (s : State) (Q : Queue) (status : Status) (data : Word) :
    ChangesOnlyQueue q s ((s.setQueue q Q).respond status data) :=
  ⟨setQueue_respond_queue_other .., setQueue_respond_control .., setQueue_wd ..⟩

theorem ChangesOnlyQueue.trans {q : QueueId} {s t u : State} (h : ChangesOnlyQueue q s t)
    (h' : ChangesOnlyQueue q t u) : ChangesOnlyQueue q s u := by
  obtain ⟨hother, ⟨hcap, hfault, hcause, hxact, hresets, hhost⟩, hwd⟩ := h
  obtain ⟨hother', ⟨hcap', hfault', hcause', hxact', hresets', hhost'⟩, hwd'⟩ := h'
  exact ⟨hother'.trans hother, ⟨hcap'.trans hcap, hfault'.trans hfault, hcause'.trans hcause, hxact'.trans hxact,
    hresets'.trans hresets, hhost'.trans hhost⟩, hwd'.trans hwd⟩

theorem execPushBack_changesOnlyQueue (q : QueueId) (v : Word) (s t : State) (h : exec (.pushBack q v) s = .next t) :
    ChangesOnlyQueue q s t := by
  obtain ⟨_, rfl⟩ | ⟨_, m, _, rfl⟩ := execPushBack_cases q v s t h
  · exact respond_changesOnlyQueue ..
  · exact setQueue_respond_changesOnlyQueue ..

theorem execPopBack_changesOnlyQueue (q : QueueId) (s t : State) (h : exec (.popBack q) s = .next t) :
    ChangesOnlyQueue q s t := by
  obtain ⟨_, rfl⟩ | ⟨_, v, _, rfl⟩ := execPopBack_cases q s t h
  · exact respond_changesOnlyQueue ..
  · exact setQueue_respond_changesOnlyQueue ..

theorem execPopFront_changesOnlyQueue (q : QueueId) (s t : State) (h : exec (.popFront q) s = .next t) :
    ChangesOnlyQueue q s t := by
  obtain ⟨_, rfl⟩ | ⟨_, v, _, rfl⟩ := execPopFront_cases q s t h
  · exact respond_changesOnlyQueue ..
  · exact setQueue_respond_changesOnlyQueue ..

/-- PUSH_BACK keeps the invariants also where `exec_wf` does not speak: with FAULT = 1 or while a LOAD waits. -/
theorem execPushBack_wf (q : QueueId) (v : Word) (s t : State) (hs : s.Wf) (h : exec (.pushBack q v) s = .next t) :
    t.Wf := by
  obtain ⟨hm, _, hsize⟩ := queue_wf s hs q
  obtain ⟨_, rfl⟩ | ⟨hroom, m, hw, rfl⟩ := execPushBack_cases q v s t h
  · exact respond_wf s _ _ hs
  · exact setQueue_respond_wf s q _ _ _ hs
      ⟨write_keeps_wf _ _ m _ v hw hm, stepDown_lt _ _ (wf_capacity_pos s hs), Nat.lt_of_le_of_ne hsize hroom⟩

/-! ### One queue at its two ends -/

theorem stepUp_stepDown (C b : Nat) (hb : b < C) : stepUp C (stepDown C b) = b :=
  (stepDown_add_succ_mod C b 0 (by omega)).trans (Nat.mod_eq_of_lt hb)

/-- A queue with one element less is not full (10_state.md R34). -/
theorem isFull_of_size_pred {C : Nat} {Q Q' : Queue} (hle : Q.size ≤ C) (hne : Q.size ≠ 0)
    (hs : Q'.size = Q.size - 1) : Q'.isFull C = false :=
  beq_eq_false_iff_ne.2 (by omega)

/-- A queue with one element less is empty exactly if it had just one (10_state.md R34). -/
theorem isEmpty_of_size_pred {Q Q' : Queue} (hne : Q.size ≠ 0) (hs : Q'.size = Q.size - 1) :
    Q'.isEmpty = (Q.size == 1) := by
  rw [Queue.isEmpty, hs, Bool.eq_iff_iff, beq_iff_eq, beq_iff_eq]
  omega

/-- What is read at the back heads the sequence. -/
theorem eq_cons_of_read_begin {C : Nat} {Q : Queue} {A : List Word} {v : Word} (hQ : Q.Wf C) (hne : Q.size ≠ 0)
    (hA : Q.seq C = some A) (hv : Memory.read Q.storage Q.begin = some v) : ∃ B, A = v :: B := by
  have hhead : A.head? = some v := by rw [List.head?_eq_getElem?, ← read_begin hQ hne hA, hv]
  exact List.head?_eq_some_iff.1 hhead

/-! ### The obligations -/

/-- Settles O26: on a full queue only the answer is new; otherwise the one write is at the slot below the back. -/
theorem pushBackInsertsAtTheBack : Obligations.PushBackInsertsAtTheBack := by
  intro q v s hs
  have hQ := queue_wf s hs q
  have ⟨_, hb, _⟩ := hQ
  obtain ⟨t, ht⟩ := exec_total (.pushBack q v) s hs
  obtain ⟨hother, hcontrol, hwd⟩ := execPushBack_changesOnlyQueue q v s t ht
  refine ⟨t, ht, hother, hcontrol, hwd, ?_⟩
  rw [← stepDown_eq s.capacity _ hb]
  obtain ⟨hfull, rfl⟩ | ⟨hroom, m, hm, rfl⟩ := execPushBack_cases q v s t ht
  · rw [if_pos hfull]
    exact ⟨respond_queue .., rfl, rfl⟩
  · obtain ⟨_, _, hread⟩ := write_eq_some _ _ _ _ hm
    rw [if_neg hroom, setQueue_respond_queue_self, setQueue_respond_seq_self, respond_capacity, setQueue_capacity]
    refine ⟨rfl, rfl, by rw [hread, if_pos rfl], fun p hp => ?_, beq_eq_false_iff_ne.2 (Nat.succ_ne_zero _), rfl,
      setQueue_respond_answered .., fun A hA => seq_push hQ hroom hA hm⟩
    rw [setQueue_respond_queue_self, hread, if_neg hp]

/-- Settles O27: the element read at the back heads the old sequence, and the registers step past it. -/
theorem popBackTakesTheBack : Obligations.PopBackTakesTheBack := by
  intro q s hs
  have hQ := queue_wf s hs q
  have ⟨_, hb, hle⟩ := hQ
  obtain ⟨t, ht⟩ := exec_total (.popBack q) s hs
  obtain ⟨hother, hcontrol, hwd⟩ := execPopBack_changesOnlyQueue q s t ht
  refine ⟨t, ht, hother, hcontrol, hwd, fun p _ => by rw [execPopBack_storage q q s t ht], ?_⟩
  rw [← stepUp_eq s.capacity _ hb]
  obtain ⟨hempty, rfl⟩ | ⟨hne, v, hv, rfl⟩ := execPopBack_cases q s t ht
  · rw [if_pos hempty]
    exact ⟨respond_queue .., rfl, rfl⟩
  · rw [if_neg hne, setQueue_respond_queue_self, setQueue_respond_seq_self, respond_capacity, setQueue_capacity]
    refine ⟨rfl, rfl, isFull_of_size_pred hle hne rfl, isEmpty_of_size_pred hne rfl, v, hv,
      setQueue_respond_answered .., fun A hA => ?_⟩
    obtain ⟨B, rfl⟩ := eq_cons_of_read_begin hQ hne hA hv
    exact ⟨B, rfl, seq_popBack hA⟩

/-- Settles O28: the element read at the front ends the old sequence, and `size` alone goes down. -/
theorem popFrontTakesTheFront : Obligations.PopFrontTakesTheFront := by
  intro q s hs
  obtain ⟨_, _, hle⟩ := queue_wf s hs q
  obtain ⟨t, ht⟩ := exec_total (.popFront q) s hs
  obtain ⟨hother, hcontrol, hwd⟩ := execPopFront_changesOnlyQueue q s t ht
  refine ⟨t, ht, hother, hcontrol, hwd, fun p _ => by rw [execPopFront_storage q q s t ht], ?_⟩
  obtain ⟨hempty, rfl⟩ | ⟨hne, v, hv, rfl⟩ := execPopFront_cases q s t ht
  · rw [if_pos hempty]
    exact ⟨respond_queue .., rfl, rfl⟩
  · rw [if_neg hne, setQueue_respond_queue_self, setQueue_respond_seq_self, respond_capacity, setQueue_capacity]
    refine ⟨rfl, rfl, isFull_of_size_pred hle hne rfl, isEmpty_of_size_pred hne rfl, v, hv,
      setQueue_respond_answered .., fun A hA => ?_⟩
    have hlast : A.getLast? = some v := (read_frontPtr hne hA).symm.trans hv
    exact ⟨A.dropLast, (List.dropLast_append_getLast? v hlast).symm, seq_popFront hA⟩

/-- Settles O29, from O26 and O27: `begin` steps down and up again, and the pop writes no slot. -/
theorem pushBackThenPopBackRoundTrip : Obligations.PushBackThenPopBackRoundTrip := by
  intro q v s hs hlt
  have hQ := queue_wf s hs q
  have ⟨_, hb, _⟩ := hQ
  obtain ⟨A, hA⟩ := seq_isSome s.capacity (s.queue q) (wf_capacity_pos s hs) hQ
  obtain ⟨t, ht, _, ⟨hcap, _⟩, _, hpush⟩ := pushBackInsertsAtTheBack q v s hs
  rw [if_neg hlt.ne, ← stepDown_eq s.capacity _ hb] at hpush
  obtain ⟨hbt, hsizet, hslot, hkept, _, _, hanst, hseqt⟩ := hpush
  have htwf := execPushBack_wf q v s t hs ht
  obtain ⟨_, hbtC, _⟩ := queue_wf t htwf q
  obtain ⟨u, hu, _, _, _, hkeptu, hpop⟩ := popBackTakesTheBack q t htwf
  rw [if_neg (by omega), ← stepUp_eq t.capacity _ hbtC] at hpop
  obtain ⟨hbu, hsizeu, _, _, w, _, hansu, hsequ⟩ := hpop
  obtain ⟨B, hcons, hB⟩ := hsequ _ (hseqt A hA)
  obtain ⟨rfl, rfl⟩ := List.cons.inj hcons
  obtain ⟨hother, hcontrol, hwd⟩ :=
    (execPushBack_changesOnlyQueue q v s t ht).trans (execPopBack_changesOnlyQueue q t u hu)
  refine ⟨t, u, ht, hanst, hu, hansu, ?_, by omega, hB.trans hA.symm, (hkeptu _ not_false).trans hslot,
    fun p hp => (hkeptu p not_false).trans (hkept p hp), hother, hcontrol, hwd⟩
  rw [hbu, hbt, hcap, stepUp_stepDown s.capacity _ hb]

/-- Settles O30, from O26 to O28: the sequence after the PUSH_BACK is the value and then the old one. -/
theorem newestAtBackOldestAtFront : Obligations.NewestAtBackOldestAtFront := by
  intro q v s A hs hA hlt
  rw [seq_length hA] at hlt
  obtain ⟨t, ht, _, _, _, hpush⟩ := pushBackInsertsAtTheBack q v s hs
  rw [if_neg hlt.ne] at hpush
  obtain ⟨_, hsize, _, _, _, _, _, hseq⟩ := hpush
  have hne : (t.queue q).size ≠ 0 := by omega
  have htwf := execPushBack_wf q v s t hs ht
  obtain ⟨u, hu, _, _, _, _, hback⟩ := popBackTakesTheBack q t htwf
  obtain ⟨w, hw, _, _, _, _, hfront⟩ := popFrontTakesTheFront q t htwf
  rw [if_neg hne] at hback hfront
  obtain ⟨_, _, _, _, newest, _, hansu, hheads⟩ := hback
  obtain ⟨_, _, _, _, oldest, _, hansw, hends⟩ := hfront
  obtain ⟨_, hcons, _⟩ := hheads _ (hseq A hA)
  obtain ⟨B, hsnoc, _⟩ := hends _ (hseq A hA)
  obtain ⟨rfl, _⟩ := List.cons.inj hcons
  have hlast : (v :: A).getLast (List.cons_ne_nil v A) = oldest := by simp only [hsnoc, List.getLast_append_singleton]
  exact ⟨t, u, w, ht, hu, hansu, hw, hlast ▸ hansw⟩

end Sys2Proof.Machine

/-! The indexed commands (42_indexed.md): GET (R140 to R142), FIND (R144, R145), REMOVE_AT (R148 to R150). -/

namespace Sys2Proof.Machine

/-! ### An index out of range -/

/-- Fault entry of an index not below `size`, field by field (42_indexed.md R141, R149; 60_exceptions.md R207). -/
theorem raise_indexOutOfRange_exact (s : State) :
    (s.raise .indexOutOfRange).fault = true ∧ (s.raise .indexOutOfRange).faultCause = .indexOutOfRange ∧
      (s.raise .indexOutOfRange).faultCause.code = 2#4 ∧ SameQueues s (s.raise .indexOutOfRange) ∧
      Answered s (s.raise .indexOutOfRange) .faulted 2#32 :=
  ⟨rfl, rfl, rfl, ⟨rfl, rfl⟩, rfl, rfl⟩

/-! ### The sequence by index -/

theorem lt_size_of_getElem? {C : Nat} {Q : Queue} {A : List Word} {j : Nat} {v : Word} (hA : Q.seq C = some A)
    (hv : A[j]? = some v) : j < Q.size := by
  obtain ⟨hj, _⟩ := List.getElem?_eq_some_iff.1 hv
  exact (seq_length hA).symm ▸ hj

/-! ### The slots that REMOVE_AT's loop leaves -/

/-- REMOVE_AT's loop writes only the slots of the indices that it gives a new element (42_indexed.md R148). -/
theorem shift_keeps_slots {C k p : Nat} {Q Q' : Queue} (hQ : Q.Wf C) (hk : k < Q.size)
    (h : Q.shift C k (Q.size - 1 - k) = some Q') (hp : ¬ ∃ i, k ≤ i ∧ i + 1 < Q.size ∧ p = Q.phys C i) :
    Memory.read Q'.storage p = Memory.read Q.storage p := by
  obtain ⟨hb, hm', he⟩ := shift_eq_some hQ hk h
  obtain ⟨hm, hbegin, _⟩ := hQ
  by_cases hpC : p < C
  · obtain ⟨i, hi, rfl⟩ := exists_phys C Q p hbegin hpC
    have hkept : ¬ (k ≤ i ∧ i < Q.size - 1) := fun ⟨hlow, hhigh⟩ => hp ⟨i, hlow, by omega, rfl⟩
    have hsame : Q'.phys C i = Q.phys C i := by rw [Queue.phys, Queue.phys, hb]
    calc Memory.read Q'.storage (Q.phys C i)
        = Q'.elem C i := by rw [Queue.elem, hsame]
      _ = Q.elem C i := by rw [he i hi, if_neg hkept]
  · rw [memory_wf_iff] at hm hm'
    rw [Memory.read, Memory.read, List.getElem?_eq_none (by omega), List.getElem?_eq_none (by omega)]

/-! ### The obligations -/

/-- Settles O31: within the range the element read is that of the sequence; out of it the answer is fault entry. -/
theorem getAnswersTheElement : Obligations.GetAnswersTheElement := by
  intro q index s A hs hA
  obtain ⟨t, ht⟩ := exec_total (.get q index) s hs
  obtain ⟨hi, v, hv, rfl⟩ | ⟨hge, rfl⟩ := execGet_cases q index s t ht
  · rw [if_pos hi]
    exact ⟨v, hv, (elem_of_seq hA _ hi).symm.trans hv, ht⟩
  · rw [if_neg (Nat.not_lt.2 hge)]
    exact ⟨_, ht, rfl, raise_indexOutOfRange_exact s⟩

/-- Settles O32, from what the scan of the indices below `size` can answer. -/
theorem findAnswersTheLeastIndex : Obligations.FindAnswersTheLeastIndex := by
  intro q v s A hs hA
  obtain ⟨_, _, hle⟩ := queue_wf s hs q
  obtain ⟨t, ht⟩ := exec_total (.find q v) s hs
  obtain ⟨k, hscan, rfl⟩ | ⟨hscan, rfl⟩ := execFind_cases q v s t ht
  · obtain ⟨_, hk, hkv, hleast⟩ := scan_eq_some _ _ _ _ _ _ hscan
    rw [Nat.zero_add] at hk
    refine .inl ⟨k, hk, (elem_of_seq hA k hk).symm.trans hkv, fun j hj => ?_, ht,
      toNat_ofNat_of_le_capacity _ k hs.1 (hk.le.trans hle)⟩
    rw [← elem_of_seq hA j (hj.trans hk)]
    exact hleast j (Nat.zero_le j) hj
  · have hnone := scan_eq_some _ _ _ _ _ _ hscan
    refine .inr ⟨fun j hj => ?_, ht⟩
    have hlt := lt_size_of_getElem? hA hj
    exact hnone j (Nat.zero_le j) (by omega) ((elem_of_seq hA j hlt).trans hj)

/-- Settles O33: within the range the loop moves the elements above the index and writes no other slot. -/
theorem removeAtClosesTheGap : Obligations.RemoveAtClosesTheGap := by
  intro q index s hs
  have hQ := queue_wf s hs q
  have ⟨_, _, hle⟩ := hQ
  obtain ⟨t, ht⟩ := exec_total (.removeAt q index) s hs
  obtain ⟨hi, Q', hshift, rfl⟩ | ⟨hge, rfl⟩ := execRemoveAt_cases q index s t ht
  · obtain ⟨hb, _, he⟩ := shift_eq_some hQ hi hshift
    have hne : (s.queue q).size ≠ 0 := Nat.ne_zero_of_lt hi
    obtain ⟨hother, hcontrol, hwd⟩ :=
      setQueue_respond_changesOnlyQueue q s { Q' with size := (s.queue q).size - 1 } .ok 0
    rw [if_pos hi]
    refine ⟨_, ht, ?_⟩
    rw [SlotsKept, setQueue_respond_queue_self, setQueue_respond_seq_self, respond_capacity, setQueue_capacity]
    refine ⟨hb, rfl, fun k hlow hhigh => ?_, fun p hp => shift_keeps_slots (Q' := Q') hQ hi hshift hp,
      isFull_of_size_pred hle hne rfl, isEmpty_of_size_pred hne rfl, fun A hA => seq_removeAt hQ hi hA hshift,
      hother, hcontrol, hwd, setQueue_respond_answered ..⟩
    exact (he k (by omega)).trans (if_pos ⟨hlow, by omega⟩)
  · rw [if_neg (Nat.not_lt.2 hge)]
    exact ⟨_, ht, rfl, raise_indexOutOfRange_exact s⟩

/-- Settles O40, from O31: the beats of COPY_TO are the sequence, and each of its indices fits 32 bits. -/
theorem getsReproduceCopyTo : Obligations.GetsReproduceCopyTo := by
  intro q s hs
  obtain ⟨_, _, hle⟩ := queue_wf s hs q
  obtain ⟨t, ht⟩ := exec_total (.copyTo q) s hs
  obtain ⟨A, hA, rfl⟩ := execCopyTo_cases q s t ht
  have hlen : A.length = (s.queue q).size := seq_length hA
  refine ⟨_, A, ht, rfl, hlen, fun k hk => ?_⟩
  have hget := getAnswersTheElement q (BitVec.ofNat 32 k) s A hs hA
  rw [toNat_ofNat_of_le_capacity _ k hs.1 (by omega), if_pos (hlen ▸ hk)] at hget
  obtain ⟨v, _, hv, hexec⟩ := hget
  obtain ⟨_, rfl⟩ := List.getElem?_eq_some_iff.1 hv
  exact hexec

end Sys2Proof.Machine

/-! MERGE (43_merge.md): the two outcomes that move nothing (R161, R162), the zipper as a list (R164, R169), and what a
MERGE within capacity leaves of both queues (R163, R165, R166). -/

namespace Sys2Proof.Machine

/-! ### The zipper -/

/-- `i` pairs off the front of a zipper are `i` elements off the front of each list (43_merge.md R164). -/
theorem drop_two_mul_zipper (A B : List Word) : ∀ i, i ≤ A.length → i ≤ B.length →
    (zipper A B).drop (2 * i) = zipper (A.drop i) (B.drop i) := by
  induction A, B using zipper.induct with
  | case1 B =>
    intro i hi _
    obtain rfl : i = 0 := Nat.le_zero.1 hi
    rfl
  | case2 a A =>
    intro i _ hi
    obtain rfl : i = 0 := Nat.le_zero.1 hi
    rfl
  | case3 a A b B ih =>
    intro i hA hB
    cases i with
    | zero => rfl
    | succ i => exact ih i (Nat.le_of_succ_le_succ hA) (Nat.le_of_succ_le_succ hB)

/-- A zipper read `j` places after its first `i` pairs. -/
theorem zipper_getElem?_after_pairs {A B : List Word} {i : Nat} (hA : i ≤ A.length) (hB : i ≤ B.length) (j : Nat) :
    (zipper A B)[2 * i + j]? = (zipper (A.drop i) (B.drop i))[j]? := by
  rw [← drop_two_mul_zipper A B i hA hB, List.getElem?_drop]

/-- Each pair of a zipper is an element of the first list and then one of the second. -/
theorem zipper_getElem?_pair {A B : List Word} {i : Nat} (hA : i < A.length) (hB : i < B.length) :
    (zipper A B)[2 * i]? = A[i]? ∧ (zipper A B)[2 * i + 1]? = B[i]? := by
  have hpair := zipper_getElem?_after_pairs hA.le hB.le
  rw [List.drop_eq_getElem_cons hA, List.drop_eq_getElem_cons hB, zipper_cons_cons] at hpair
  exact ⟨(hpair 0).trans (List.getElem?_eq_getElem hA).symm, (hpair 1).trans (List.getElem?_eq_getElem hB).symm⟩

/-- After the last pair a zipper goes on with the rest of the second list, when that is not the shorter. -/
theorem zipper_getElem?_tail_right {A B : List Word} (h : A.length ≤ B.length) (j : Nat) :
    (zipper A B)[2 * A.length + j]? = B[A.length + j]? := by
  rw [zipper_getElem?_after_pairs le_rfl h, List.drop_length, zipper_nil_left, List.getElem?_drop]

/-- After the last pair a zipper goes on with the rest of the first list, when that is not the shorter. -/
theorem zipper_getElem?_tail_left {A B : List Word} (h : B.length ≤ A.length) (j : Nat) :
    (zipper A B)[2 * B.length + j]? = A[B.length + j]? := by
  rw [zipper_getElem?_after_pairs h le_rfl, List.drop_length, zipper_nil_right, List.getElem?_drop]

theorem zipper_perm (A B : List Word) : (zipper A B).Perm (A ++ B) := by
  induction A, B using zipper.induct with
  | case1 B => exact .refl B
  | case2 a A => rw [zipper_nil_right, List.append_nil]
  | case3 a A b B ih => exact ((ih.cons b).trans List.perm_middle.symm).cons a

theorem sublist_zipper_left (A B : List Word) : A.Sublist (zipper A B) := by
  induction A, B using zipper.induct with
  | case1 B => exact List.nil_sublist B
  | case2 a A => exact .refl (a :: A)
  | case3 a A b B ih => exact (ih.cons b).cons_cons a

theorem sublist_zipper_right (A B : List Word) : B.Sublist (zipper A B) := by
  induction A, B using zipper.induct with
  | case1 B => exact .refl B
  | case2 a A => exact List.nil_sublist (a :: A)
  | case3 a A b B ih => exact (ih.cons_cons b).cons a

/-! ### The three outcomes of MERGE -/

theorem exec_merge_self (d : QueueId) (s : State) : exec (.merge d d) s = .next (s.raise .mergeAlias) :=
  if_pos rfl

theorem exec_merge_of_over {d src : QueueId} {s : State} (hne : d ≠ src)
    (hover : s.capacity < (s.queue d).size + (s.queue src).size) :
    exec (.merge d src) s = .next (s.respond .wouldExceedCapacity 0) :=
  (if_neg hne).trans (if_pos hover)

/-- The destination after a MERGE: the slots it was left with, and all elements of both queues from slot 0 on
(43_merge.md R165). -/
def mergedInto (m : Memory) (A B : List Word) : Queue :=
  { storage := m, begin := 0, size := A.length + B.length }

/-- The state after a MERGE whose zipper left the destination with the slots `m` (43_merge.md R165, R166). -/
def State.merged (s : State) (d src : QueueId) (m : Memory) (A B : List Word) : State :=
  ((s.setQueue d (mergedInto m A B)).setQueue src { s.queue src with size := 0 }).respond .ok 0

/-- Within capacity a MERGE writes the zipper of the sequences from before it (43_merge.md R163). -/
theorem exec_merge_of_fits {d src : QueueId} {s : State} {A B : List Word} (hs : s.Wf) (hne : d ≠ src)
    (hA : s.seq d = some A) (hB : s.seq src = some B) (hfits : A.length + B.length ≤ s.capacity) :
    ∃ m, Memory.writeRun (s.queue d).storage 0 (zipper A B) = some m ∧
      exec (.merge d src) s = .next (s.merged d src m A B) := by
  have hlA : A.length = (s.queue d).size := seq_length hA
  have hlB : B.length = (s.queue src).size := seq_length hB
  obtain ⟨t, ht⟩ := exec_total (.merge d src) s hs
  obtain ⟨heq, _⟩ | ⟨_, hover, _⟩ | ⟨_, _, A', B', m, hA', hB', hm, rfl⟩ := execMerge_cases d src s t ht
  · exact absurd heq hne
  · omega
  · obtain rfl : A = A' := Option.some.inj (hA.symm.trans hA')
    obtain rfl : B = B' := Option.some.inj (hB.symm.trans hB')
    refine ⟨m, hm, ?_⟩
    rw [State.merged, mergedInto, hlA, hlB]
    exact ht

/-! ### The state after a MERGE within capacity -/

section merged
variable (s : State) (d src : QueueId) (m : Memory) (A B : List Word)

theorem merged_capacity : (s.merged d src m A B).capacity = s.capacity := by simp [State.merged]

theorem merged_queue_src : (s.merged d src m A B).queue src = { s.queue src with size := 0 } :=
  setQueue_respond_queue_self ..

theorem merged_queue_dest (hne : d ≠ src) : (s.merged d src m A B).queue d = mergedInto m A B := by
  rw [State.merged, respond_queue, setQueue_queue_of_ne _ _ _ _ hne, setQueue_queue_self]

theorem merged_seq_src : (s.merged d src m A B).seq src = some [] := by
  rw [State.seq, merged_queue_src]
  exact seq_of_size_zero _ _ rfl

theorem merged_control : SameControl s (s.merged d src m A B) := by simp [SameControl, State.merged]

theorem merged_wd : (s.merged d src m A B).wd = s.wd := by simp [State.merged]

theorem merged_answered : Answered s (s.merged d src m A B) .ok 0 := by simp [Answered, State.merged]

end merged

/-- The zipper written from slot 0 on is the sequence of the destination (43_merge.md R165). -/
theorem mergedInto_seq {C : Nat} {m m' : Memory} {A B : List Word} (hfits : A.length + B.length ≤ C)
    (h : Memory.writeRun m 0 (zipper A B) = some m') : (mergedInto m' A B).seq C = some (zipper A B) := by
  rw [← zipper_length] at hfits
  simpa [mergedInto] using seq_writeRun hfits h

/-! ### The obligations -/

/-- Settles O37: a position below `2 * min m n` lies in a pair, and any other in the rest of the longer list. -/
theorem zipperClosedForm : Obligations.ZipperClosedForm := by
  intro A B
  refine ⟨zipper_length A B, fun k _ => ?_⟩
  split
  next hpairs =>
    obtain ⟨hfirst, hsecond⟩ := zipper_getElem?_pair (A := A) (B := B) (i := k / 2) (by omega) (by omega)
    split
    next heven => rwa [show 2 * (k / 2) = k by omega] at hfirst
    next hodd => rwa [show 2 * (k / 2) + 1 = k by omega, show k / 2 = (k - 1) / 2 by omega] at hsecond
  next hrest =>
    split
    next hlonger =>
      have htail := zipper_getElem?_tail_left hlonger.le (k - 2 * B.length)
      rwa [show 2 * B.length + (k - 2 * B.length) = k by omega,
        show B.length + (k - 2 * B.length) = k - B.length by omega] at htail
    next hshorter =>
      have htail := zipper_getElem?_tail_right (Nat.not_lt.1 hshorter) (k - 2 * A.length)
      rwa [show 2 * A.length + (k - 2 * A.length) = k by omega,
        show A.length + (k - 2 * A.length) = k - A.length by omega] at htail

/-- Settles O38, each part by induction on the pairs. -/
theorem zipperKeepsElementsAndOrder : Obligations.ZipperKeepsElementsAndOrder := fun A B =>
  ⟨zipper_perm A B, sublist_zipper_left A B, sublist_zipper_right A B⟩

/-- Settles O35: the check for equal queues comes first, and its outcome is fault entry. -/
theorem mergeWithItselfFaults : Obligations.MergeWithItselfFaults := fun d s =>
  ⟨_, exec_merge_self d s, rfl, rfl, rfl, ⟨rfl, rfl⟩, ⟨rfl, rfl⟩, rfl, rfl, rfl, rfl, rfl⟩

/-- Settles O36: the capacity check comes before any slot is read. -/
theorem mergeOverCapacityIsAStatus : Obligations.MergeOverCapacityIsAStatus := fun _ _ _ => exec_merge_of_over

/-- Settles O34: the run written to the destination is the zipper, and of the source only `size` is written. -/
theorem mergeInterleavesTheQueues : Obligations.MergeInterleavesTheQueues := by
  intro d src s A B hs hne hA hB hfits
  obtain ⟨m, hm, ht⟩ := exec_merge_of_fits hs hne hA hB hfits
  have hread := read_writeRun_zero hm
  rw [zipper_length] at hread
  have hnotFull : Queue.isFull s.capacity { s.queue src with size := 0 } = false :=
    beq_eq_false_iff_ne.2 (wf_capacity_pos s hs).ne
  refine ⟨_, ht, ?_⟩
  rw [SlotsKept, merged_seq_src, State.seq, merged_queue_dest s d src m A B hne, merged_queue_src, merged_capacity]
  exact ⟨rfl, rfl, fun k hk => (hread k).trans (if_pos hk), fun p hp => (hread p).trans (if_neg hp), rfl, rfl, rfl,
    mergedInto_seq hfits hm, rfl, rfl, hnotFull, rfl, rfl, merged_control .., merged_wd .., merged_answered ..⟩

end Sys2Proof.Machine

/-! The inspection commands (44_inspect.md): COPY_TO (R180) and SIZE (R184). -/

namespace Sys2Proof.Machine

/-! ### The answers of the inspection commands -/

theorem exec_copyTo_of_seq {q : QueueId} {s : State} {A : List Word} (hA : s.seq q = some A) :
    exec (.copyTo q) s = .next ((s.respond .ok (BitVec.ofNat 32 (s.queue q).size)).emit A) := by
  have hseq : (s.queue q).seq s.capacity = some A := hA
  rw [exec, execCopyTo, hseq, orSlotFault_some]

theorem exec_size (q : QueueId) (s : State) :
    exec (.size q) s = .next (s.respond .ok (BitVec.ofNat 32 (s.queue q).size)) :=
  rfl

/-! ### The obligations -/

/-- Settles O39: the beats are the sequence that the slots hold, which has `size` elements. -/
theorem copyToGivesTheSequence : Obligations.CopyToGivesTheSequence := fun _ _ _ _ hA =>
  ⟨seq_length hA, exec_copyTo_of_seq hA⟩

/-- Settles O41: `size` is at most a legal capacity, so DATA holds it whole. -/
theorem sizeAnswersTheSize : Obligations.SizeAnswersTheSize := by
  intro q s hs
  obtain ⟨_, _, hle⟩ := queue_wf s hs q
  exact ⟨_, toNat_ofNat_of_le_capacity _ _ hs.1 hle, exec_size q s⟩

end Sys2Proof.Machine

/-! Exceptions (60_exceptions.md): the statuses of each command (R202), the faults of an illegal word and of a LOAD that is
too long (R206, R209), fault entry (R210), the halt and the one way out of it (R212, R213), what a step runs (R214, R223),
and how a run that faults stands (R212). -/

namespace Sys2Proof.Machine

/-! ### A command word offered to a running block -/

/-- A running block either takes the word the host offers, or idles because the word is not presented yet
(60_exceptions.md R214, log 6). -/
theorem step_of_command (s : State) (w : CommandWord) (rest : List HostEvent) (hf : s.fault = false)
    (hx : s.xact = .idle) (hh : s.host = .command w :: rest) :
    step s = if s.presents w then ({ s with host := rest } : State).accept w else .next s := by
  obtain ⟨_, hh', _⟩ | ⟨_, hf', _⟩ | ⟨_, _, hrun⟩ := step_eq s
  · cases hh.symm.trans hh'
  · simp [hf] at hf'
  · obtain ⟨_, _, _, hx', _⟩ | ⟨_, _, _, hh', hp, hs⟩ | ⟨_, _, _, hh', hp, hs⟩ | ⟨_, hh', _⟩ := hrun
    · cases hx.symm.trans hx'
    · cases hh.symm.trans hh'
      rw [hs, if_pos hp]
    · cases hh.symm.trans hh'
      rw [hs, hp]
      rfl
    · cases hh.symm.trans hh'

theorem accept_of_decode (s : State) (w : CommandWord) (i : Instr) (hi : decode w = some i) :
    s.accept w = exec i s := by
  rw [State.accept, hi]

theorem accept_of_illegal (s : State) (w : CommandWord) (hw : decode w = none) :
    s.accept w = .next (s.raise .illegalCommand) := by
  rw [State.accept, hw]

/-- A LOAD longer than the capacity faults before any beat is taken (60_exceptions.md R209). -/
theorem exec_load_of_over (q : QueueId) (length : Word) (s : State) (h : s.capacity < length.toNat) :
    exec (.load q length) s = .next (s.raise .loadLength) := by
  rw [exec, execLoad, if_pos h]

/-! ### The statuses of a command -/

/-- The command has given its one response, with a status its rule allows (60_exceptions.md R202). -/
def GivesAllowedStatus (i : Instr) (s t : State) : Prop := ∃ r, t.rsp = s.rsp ++ [r] ∧ r.status ∈ mayAnswer i

theorem givesAllowedStatus_of_respond {i : Instr} (s : State) (status : Status) (data : Word)
    (h : status ∈ mayAnswer i) : GivesAllowedStatus i s (s.respond status data) :=
  ⟨_, rfl, h⟩

theorem givesAllowedStatus_of_raise {i : Instr} (s : State) (c : Cause) (h : .faulted ∈ mayAnswer i) :
    GivesAllowedStatus i s (s.raise c) :=
  ⟨_, rfl, h⟩

theorem givesAllowedStatus_of_setQueue {i : Instr} (s : State) (q : QueueId) (Q : Queue) (status : Status) (data : Word)
    (h : status ∈ mayAnswer i) : GivesAllowedStatus i s ((s.setQueue q Q).respond status data) :=
  ⟨_, (setQueue_respond_answered s q Q status data).1, h⟩

/-- OK is among the statuses of every command (60_exceptions.md R202). -/
theorem ok_mem_mayAnswer (i : Instr) : Status.ok ∈ mayAnswer i := by
  cases i <;> exact List.mem_cons_self

/-- Only a LOAD can leave its response for later. -/
theorem exec_givesAllowedStatus (i : Instr) (s t : State) (h : exec i s = .next t) :
    GivesAllowedStatus i s t ∨
    (t.rsp = s.rsp ∧ ∃ q length, i = .load q length ∧ t.xact = .loading q length.toNat s.wd) := by
  have hok := ok_mem_mayAnswer i
  cases i with
  | init q =>
    obtain rfl := execInit_cases q s t h
    exact .inl (givesAllowedStatus_of_setQueue s q _ _ _ hok)
  | pushBack q v =>
    obtain ⟨_, rfl⟩ | ⟨_, m, _, rfl⟩ := execPushBack_cases q v s t h
    · exact .inl (givesAllowedStatus_of_respond s _ _ (by simp [mayAnswer]))
    · exact .inl (givesAllowedStatus_of_setQueue s q _ _ _ hok)
  | popBack q =>
    obtain ⟨_, rfl⟩ | ⟨_, v, _, rfl⟩ := execPopBack_cases q s t h
    · exact .inl (givesAllowedStatus_of_respond s _ _ (by simp [mayAnswer]))
    · exact .inl (givesAllowedStatus_of_setQueue s q _ _ _ hok)
  | popFront q =>
    obtain ⟨_, rfl⟩ | ⟨_, v, _, rfl⟩ := execPopFront_cases q s t h
    · exact .inl (givesAllowedStatus_of_respond s _ _ (by simp [mayAnswer]))
    · exact .inl (givesAllowedStatus_of_setQueue s q _ _ _ hok)
  | get q index =>
    obtain ⟨_, v, _, rfl⟩ | ⟨_, rfl⟩ := execGet_cases q index s t h
    · exact .inl (givesAllowedStatus_of_respond s _ _ hok)
    · exact .inl (givesAllowedStatus_of_raise s _ (by simp [mayAnswer]))
  | find q v =>
    obtain ⟨k, _, rfl⟩ | ⟨_, rfl⟩ := execFind_cases q v s t h
    · exact .inl (givesAllowedStatus_of_respond s _ _ hok)
    · exact .inl (givesAllowedStatus_of_respond s _ _ (by simp [mayAnswer]))
  | removeAt q index =>
    obtain ⟨_, Q', _, rfl⟩ | ⟨_, rfl⟩ := execRemoveAt_cases q index s t h
    · exact .inl (givesAllowedStatus_of_setQueue s q _ _ _ hok)
    · exact .inl (givesAllowedStatus_of_raise s _ (by simp [mayAnswer]))
  | merge d src =>
    obtain ⟨_, rfl⟩ | ⟨_, _, rfl⟩ | ⟨_, _, A, B, m, _, _, _, rfl⟩ := execMerge_cases d src s t h
    · exact .inl (givesAllowedStatus_of_raise s _ (by simp [mayAnswer]))
    · exact .inl (givesAllowedStatus_of_respond s _ _ (by simp [mayAnswer]))
    · refine .inl ⟨{ status := .ok, data := 0 }, ?_, hok⟩
      simp
  | copyTo q =>
    obtain ⟨A, _, rfl⟩ := execCopyTo_cases q s t h
    exact .inl (givesAllowedStatus_of_respond s _ _ hok)
  | load q n =>
    obtain ⟨_, rfl⟩ | ⟨_, _, rfl⟩ | ⟨_, _, m, _, rfl⟩ := execLoad_cases q n s t h
    · exact .inl (givesAllowedStatus_of_raise s _ (by simp [mayAnswer]))
    · exact .inr ⟨rfl, q, n, rfl, rfl⟩
    · exact .inl (givesAllowedStatus_of_setQueue { s with wd := s.wd.drop n.toNat, xact := .idle } q _ _ _ hok)
  | size q =>
    obtain rfl := execSize_cases q s t h
    exact .inl (givesAllowedStatus_of_respond s _ _ hok)

/-! ### The halted block -/

/-- A halted block has no LOAD waiting and `cmd_ready` 0, so without reset an edge only lets it compute or lets what it has
given pass (60_exceptions.md R212). -/
theorem edge_halted (p : PinState) (i : PinsIn) (pace : Nat) (hp : p.Wf) (hf : p.block.fault = true)
    (hr : i.rst = false) :
    ∃ p', p.edge i pace = .next p' ∧ SameQueues p.block p'.block ∧ p'.block.fault = true ∧
      p'.block.faultCause = p.block.faultCause := by
  cases edge_kind p i pace with
  | reset hr' _ => simp [hr] at hr'
  | computes n _ he => exact ⟨_, he, ⟨rfl, rfl⟩, hf, rfl⟩
  | waits he => exact ⟨_, he, ⟨rfl, rfl⟩, hf, rfl⟩
  | command w hready _ _ =>
    obtain ⟨_, hf', _⟩ := (cmdReady_iff p).1 hready
    simp [hf] at hf'
  | beat q n taken v hx _ _ =>
    have hf' := loading_fault p.block hp.1 q n taken hx
    simp [hf] at hf'
  | response r rest _ _ _ he => exact ⟨_, he, ⟨rfl, rfl⟩, hf, rfl⟩
  | read v rest _ _ _ _ he => exact ⟨_, he, ⟨rfl, rfl⟩, hf, rfl⟩

theorem cmdReady_of_fault (p : PinState) (rst : Bool) (hf : p.block.fault = true) : p.cmdReady rst = false := by
  simp [PinState.cmdReady, hf]

/-- A halted block has no step but the one that a reset gives (60_exceptions.md R213). -/
theorem step_of_fault (s t : State) (hf : s.fault = true) (h : step s = .next t) :
    ∃ rest, s.host = .reset :: rest ∧ t = ({ s with host := rest } : State).applyReset := by
  obtain ⟨rest, hh, hs⟩ | ⟨_, _, hs⟩ | ⟨_, hf', _⟩ := step_eq s
  · cases hs.symm.trans h
    exact ⟨rest, hh, rfl⟩
  · cases hs.symm.trans h
  · simp [hf] at hf'

/-! ### The first state with FAULT = 1

The states that a run comes to, at either level, are a sequence of outcomes: `trace m` is the outcome after `m` steps or
edges. -/

section trace
variable {σ φ ρ : Type} (trace : Nat → Host.Outcome σ φ ρ) (fault : σ → Bool)

/-- The first `n` states of the sequence all exist and have FAULT = 0. -/
def RunsUnfaulted (n : Nat) : Prop := ∀ m, m < n → ∃ v, trace m = .next v ∧ fault v = false

/-- A sequence that comes to FAULT = 1 has a first state with FAULT = 1. -/
theorem exists_first_fault (j : Nat) (t : σ) (hall : ∀ m, m ≤ j → ∃ v, trace m = .next v) (hj : trace j = .next t)
    (hf : fault t = true) : ∃ i u, i ≤ j ∧ trace i = .next u ∧ fault u = true ∧ RunsUnfaulted trace fault i := by
  classical
  have hex : ∃ i u, trace i = .next u ∧ fault u = true := ⟨j, t, hj, hf⟩
  obtain ⟨u, hu, hfu⟩ := Nat.find_spec hex
  have hle : Nat.find hex ≤ j := Nat.find_min' hex ⟨t, hj, hf⟩
  refine ⟨Nat.find hex, u, hle, hu, hfu, fun m hm => ?_⟩
  obtain ⟨v, hv⟩ := hall m (hm.le.trans hle)
  exact ⟨v, hv, Bool.eq_false_of_not_eq_true fun hfv => Nat.find_min hex hm ⟨v, hv, hfv⟩⟩

end trace

/-! ### Runs of steps -/

/-- On any machine a run of one step more is the run from the next state. -/
theorem hostRun_succ_of_step (M : Host.Core) {s u : M.State} (k : Nat) (h : M.step s = .next u) :
    M.run (k + 1) s = M.run k u := by
  rw [Host.Core.run, h]

/-- On any machine a run of one step more that comes to a state has a first step. -/
theorem exists_step_of_hostRun_succ (M : Host.Core) {k : Nat} {s t : M.State} (h : M.run (k + 1) s = .next t) :
    ∃ u, M.step s = .next u ∧ M.run k u = .next t := by
  rw [Host.Core.run] at h
  split at h
  next u hs => exact ⟨u, hs, h⟩
  next => cases h
  next => cases h

theorem run_succ_of_step {s u : State} (k : Nat) (h : step s = .next u) : core.run (k + 1) s = core.run k u :=
  hostRun_succ_of_step core k h

theorem exists_step_of_run_succ {k : Nat} {s t : State} (h : core.run (k + 1) s = .next t) :
    ∃ u : State, step s = .next u ∧ core.run k u = .next t :=
  exists_step_of_hostRun_succ core h

/-- A run that comes to a state has come to one after every smaller number of steps. -/
theorem exists_run_of_le {j : Nat} {s t : State} (h : core.run j s = .next t) (m : Nat) (hm : m ≤ j) :
    ∃ v : State, core.run m s = .next v := by
  induction m generalizing j s with
  | zero => exact ⟨s, rfl⟩
  | succ m ih =>
    obtain ⟨j, rfl⟩ := Nat.exists_eq_succ_of_ne_zero (Nat.ne_of_gt (Nat.zero_lt_of_lt hm))
    obtain ⟨u, hs, hrun⟩ := exists_step_of_run_succ h
    rw [run_succ_of_step m hs]
    exact ih hrun (Nat.le_of_succ_le_succ hm)

/-- A run that comes to `u` with FAULT = 0 before it stands as the rest of it from `u`. -/
theorem runStatus_of_run {i : Nat} {s u : State} (n : Nat) (h : core.run i s = .next u)
    (hf : RunsUnfaulted (fun m => core.run m s) State.fault i) : s.runStatus (i + n) = u.runStatus n := by
  induction i generalizing s with
  | zero =>
    cases h
    rw [Nat.zero_add]
  | succ i ih =>
    obtain ⟨s₁, hs, hrun⟩ := exists_step_of_run_succ h
    obtain ⟨_, hzero, hf₀⟩ := hf 0 (Nat.succ_pos i)
    cases hzero
    rw [Nat.succ_add, runStatus_of_next _ s s₁ hf₀ hs]
    refine ih hrun fun m hm => ?_
    simp only [← run_succ_of_step m hs]
    exact hf (m + 1) (Nat.succ_lt_succ hm)

theorem standing_eq_completed_iff (s : State) :
    s.standing = .completed ↔ s.fault = false ∧ s.host = [] ∧ s.xact = .idle := by
  cases hf : s.fault <;> simp [State.standing, hf, and_comm]

theorem standing_eq_unfinished (s : State) (hf : s.fault = false) (h : s.xact ≠ .idle ∨ s.host ≠ []) :
    s.standing = .unfinished := by
  simp only [State.standing, hf, Bool.false_eq_true, if_false, Bool.and_eq_true, beq_iff_eq, List.isEmpty_iff]
  exact if_neg (by tauto)

/-- A safe run of one step more is a step from FAULT = 0 and then a safe run. -/
theorem safeRun_succ {k : Nat} {s : State} (h : SafeRun (k + 1) s) :
    s.fault = false ∧ ∃ u, step s = .next u ∧ SafeRun k u := by
  rw [SafeRun, State.runStatus] at h
  split at h
  next => cases h
  next hf =>
    split at h
    next u hs => exact ⟨Bool.eq_false_of_not_eq_true hf, u, hs, h⟩
    next => cases h
    next => cases h

/-- Every state of a safe run has FAULT = 0, and in its last all is taken and finished. -/
theorem run_of_safeRun {k : Nat} {s : State} (h : SafeRun k s) :
    RunsUnfaulted (fun m => core.run m s) State.fault (k + 1) ∧
    ∃ t : State, core.run k s = .next t ∧ t.host = [] ∧ t.xact = .idle := by
  induction k generalizing s with
  | zero =>
    obtain ⟨hf, hend⟩ := (standing_eq_completed_iff s).1 h
    refine ⟨fun m hm => ?_, s, rfl, hend⟩
    obtain rfl := Nat.lt_one_iff.1 hm
    exact ⟨s, rfl, hf⟩
  | succ k ih =>
    obtain ⟨hf, u, hs, hu⟩ := safeRun_succ h
    obtain ⟨hall, hend⟩ := ih hu
    rw [run_succ_of_step k hs]
    refine ⟨fun m hm => ?_, hend⟩
    cases m with
    | zero => exact ⟨s, rfl, hf⟩
    | succ m =>
      simp only [run_succ_of_step m hs]
      exact hall m (Nat.lt_of_succ_lt_succ hm)

/-- A run is safe exactly when all its states have FAULT = 0 and its last has taken all and finished all. -/
theorem safeRun_iff (s : State) (k : Nat) : SafeRun k s ↔
    (∀ j, j ≤ k → ∃ t : State, core.run j s = .next t ∧ t.fault = false) ∧
    ∃ t : State, core.run k s = .next t ∧ t.host = [] ∧ t.xact = .idle := by
  constructor
  · intro h
    obtain ⟨hall, hend⟩ := run_of_safeRun h
    exact ⟨fun j hj => hall j (Nat.lt_succ_of_le hj), hend⟩
  · rintro ⟨hall, t, ht, hend⟩
    obtain ⟨_, ht', hf⟩ := hall k le_rfl
    cases ht.symm.trans ht'
    exact (runStatus_of_run 0 ht fun m hm => hall m hm.le).trans ((standing_eq_completed_iff t).2 ⟨hf, hend⟩)

/-- A run that comes to FAULT = 1 stands as faulted with the cause of its first such state, however many steps follow
(60_exceptions.md R212). -/
theorem runStatus_of_reached_fault {j k : Nat} {s t : State} (hj : core.run j s = .next t) (hf : t.fault = true)
    (hjk : j ≤ k) : ∃ (i : Nat) (u : State), i ≤ j ∧ core.run i s = .next u ∧ u.fault = true ∧
      RunsUnfaulted (fun m => core.run m s) State.fault i ∧ s.runStatus k = .faulted u.faultCause := by
  obtain ⟨i, u, hij, hu, hfu, hbefore⟩ :=
    exists_first_fault (fun m => core.run m s) State.fault j t (exists_run_of_le hj) hj hf
  obtain ⟨n, rfl⟩ := Nat.exists_eq_add_of_le (hij.trans hjk)
  exact ⟨i, u, hij, hu, hfu, hbefore, (runStatus_of_run n hu hbefore).trans (runStatus_of_fault n u hfu)⟩

/-! ### Runs of edges -/

theorem exists_edge_of_feed_cons {p p' : PinState} {j : PinsIn × Nat} {is : List (PinsIn × Nat)}
    (h : p.feed (j :: is) = .next p') : ∃ u, p.edge j.1 j.2 = .next u ∧ u.feed is = .next p' := by
  rw [PinState.feed] at h
  split at h
  next u hs => exact ⟨u, hs, h⟩
  next => cases h
  next => cases h

theorem feed_cons_of_edge {p u : PinState} {j : PinsIn × Nat} (is : List (PinsIn × Nat))
    (h : p.edge j.1 j.2 = .next u) : p.feed (j :: is) = u.feed is := by
  rw [PinState.feed, h]

/-- Edges that come to a state have come to one after every smaller number of them. -/
theorem feed_take {is : List (PinsIn × Nat)} {p p' : PinState} (h : p.feed is = .next p') (m : Nat) :
    ∃ v, p.feed (is.take m) = .next v := by
  induction is generalizing p m with
  | nil => exact ⟨p, by rw [List.take_nil]; rfl⟩
  | cons j is ih =>
    cases m with
    | zero => exact ⟨p, rfl⟩
    | succ m =>
      obtain ⟨u, he, hu⟩ := exists_edge_of_feed_cons h
      rw [List.take_succ_cons, feed_cons_of_edge _ he]
      exact ih hu m

/-- A run at the pins that comes to `u` with FAULT = 0 before it stands as the rest of it from `u`. -/
theorem pinRunStatus_of_feed {is : List (PinsIn × Nat)} {p u : PinState} (js : List (PinsIn × Nat))
    (h : p.feed is = .next u) (hf : RunsUnfaulted (fun m => p.feed (is.take m)) (·.block.fault) is.length) :
    p.runStatus (is ++ js) = u.runStatus js := by
  induction is generalizing p with
  | nil =>
    cases h
    rfl
  | cons j is ih =>
    obtain ⟨p₁, he, hrun⟩ := exists_edge_of_feed_cons h
    obtain ⟨_, hzero, hf₀⟩ := hf 0 (Nat.succ_pos _)
    cases hzero
    rw [List.cons_append, pinRunStatus_of_next j.1 j.2 _ p p₁ hf₀ he]
    refine ih hrun fun m hm => ?_
    simp only [← feed_cons_of_edge _ he, ← List.take_succ_cons]
    exact hf (m + 1) (Nat.succ_lt_succ hm)

/-- A run at the pins that comes to FAULT = 1 stands as faulted with the cause of its first such state, whatever edges
follow (60_exceptions.md R212). -/
theorem pinRunStatus_of_reached_fault {is : List (PinsIn × Nat)} {p p' : PinState} (js : List (PinsIn × Nat))
    (h : p.feed is = .next p') (hf : p'.block.fault = true) : ∃ n u, n ≤ is.length ∧ p.feed (is.take n) = .next u ∧
      u.block.fault = true ∧ RunsUnfaulted (fun m => p.feed (is.take m)) (·.block.fault) n ∧
      p.runStatus (is ++ js) = .faulted u.block.faultCause := by
  have hend : p.feed (is.take is.length) = .next p' := by rwa [List.take_length]
  obtain ⟨n, u, hn, hu, hfu, hbefore⟩ :=
    exists_first_fault (fun m => p.feed (is.take m)) (·.block.fault) is.length p' (fun m _ => feed_take h m) hend hf
  have hbefore' : RunsUnfaulted (fun m => p.feed ((is.take n).take m)) (·.block.fault) (is.take n).length := by
    intro m hm
    rw [List.length_take_of_le hn] at hm
    simp only [List.take_take, Nat.min_eq_left hm.le]
    exact hbefore m hm
  refine ⟨n, u, hn, hu, hfu, hbefore, ?_⟩
  calc p.runStatus (is ++ js)
      = p.runStatus (is.take n ++ (is.drop n ++ js)) := by rw [← List.append_assoc, List.take_append_drop]
    _ = u.runStatus (is.drop n ++ js) := pinRunStatus_of_feed _ hu hbefore'
    _ = .faulted u.block.faultCause := pinRunStatus_of_fault _ u hfu

theorem pinStanding_eq_unfinished (p : PinState) (hf : p.block.fault = false)
    (h : p.block.inTransaction = true ∨ p.working ≠ 0) : p.standing = .unfinished := by
  simp only [PinState.standing, hf, Bool.false_eq_true, if_false, Bool.or_eq_true, bne_iff_ne]
  exact if_pos h

/-- A run at the pins that is completed where it stands has no transaction in progress and does not compute. -/
theorem rest_of_pinStanding_completed (p : PinState) (h : p.standing = .completed) :
    p.block.inTransaction = false ∧ p.working = 0 := by
  rw [PinState.standing] at h
  split at h
  next => cases h
  next =>
    split at h
    next => cases h
    next hrest => simpa using hrest

/-- A safe run of edges ends in a state that is completed where it stands. -/
theorem pinStanding_of_safePinRun {is : List (PinsIn × Nat)} {p p' : PinState} (h : p.feed is = .next p')
    (hsafe : SafePinRun is p) : p'.standing = .completed := by
  induction is generalizing p with
  | nil =>
    cases h
    exact hsafe
  | cons j is ih =>
    obtain ⟨u, he, hu⟩ := exists_edge_of_feed_cons h
    cases hf : p.block.fault with
    | true => cases (pinRunStatus_of_fault (j :: is) p hf).symm.trans hsafe
    | false => exact ih hu ((pinRunStatus_of_next j.1 j.2 is p u hf he).symm.trans hsafe)

/-! ### The obligations -/

/-- Settles O18: at the transaction level by the kinds of step, at the pins by the kinds of edge. -/
theorem haltedBlockDoesNothing : Obligations.HaltedBlockDoesNothing :=
  ⟨step_eq_halted, fun p i pace hp hf hr => ⟨cmdReady_of_fault p false hf, hf, rfl, edge_halted p i pace hp hf hr⟩⟩

/-- Settles O19: a reset empties both queues, and without one an edge of the halted block keeps the cause. -/
theorem onlyResetLeavesTheFault : Obligations.OnlyResetLeavesTheFault := by
  refine ⟨fun s t hf h => ?_, fun p p' i pace hp hf hr h => ?_⟩
  · obtain ⟨rest, hh, rfl⟩ := step_of_fault s t hf h
    exact ⟨⟨rest, hh, rfl⟩, rfl, rfl, rfl, rfl⟩
  · obtain ⟨_, he, _, hf', hcause⟩ := edge_halted p i pace hp hf hr
    cases he.symm.trans h
    exact ⟨hf', hcause⟩

/-- Settles O42, command by command. -/
theorem statusesByCommand : Obligations.StatusesByCommand := exec_givesAllowedStatus

/-- Settles O59: up to its first state with FAULT = 1 a run stands as what follows, and at that state it stands as
faulted, at both levels. -/
theorem runsThatFaultEndBadly : Obligations.RunsThatFaultEndBadly := by
  refine ⟨fun s t j k hj hf hjk => ?_, fun s t k hall ht hopen => ?_, safeRun_iff, fun p p' is js h hf => ?_,
    fun p p' is hall h hopen => ?_,
    fun p p' is h hsafe => rest_of_pinStanding_completed p' (pinStanding_of_safePinRun h hsafe)⟩
  · obtain ⟨i, u, hij, hu, hfu, hbefore, hstatus⟩ := runStatus_of_reached_fault hj hf hjk
    exact ⟨by simp [SafeRun, hstatus], i, u, hij, hu, hfu, hbefore, hstatus⟩
  · obtain ⟨_, ht', hf⟩ := hall k le_rfl
    cases ht.symm.trans ht'
    exact (runStatus_of_run 0 ht fun m hm => hall m hm.le).trans (standing_eq_unfinished t hf hopen)
  · obtain ⟨n, u, hn, hu, hfu, hbefore, hstatus⟩ := pinRunStatus_of_reached_fault js h hf
    exact ⟨by simp [SafePinRun, hstatus], n, u, hn, hu, hfu, hbefore, hstatus⟩
  · obtain ⟨_, h', hf⟩ := hall is.length le_rfl
    rw [List.take_length] at h'
    cases h.symm.trans h'
    have hstatus := pinRunStatus_of_feed [] h fun m hm => hall m hm.le
    rw [List.append_nil] at hstatus
    exact hstatus.trans (pinStanding_eq_unfinished p' hf hopen)

/-- Settles O14: the word is presented exactly when the operands of its command are at hand. -/
theorem stepRunsDecodedCommand : Obligations.StepRunsDecodedCommand := by
  intro s w rest i hf hx hh hi
  rw [step_of_command s w rest hf hx hh, presents_of_decode s w i hi, accept_of_decode _ w i hi]
  exact ⟨fun hV => if_pos hV, fun hV => if_neg (by simp [hV]), hasOperands_eq_false s i⟩

/-- Settles O15, over the kinds of step: only idling has nothing to take. -/
theorem stepIdlesWithoutCommand : Obligations.StepIdlesWithoutCommand := by
  intro s hf hx hh
  obtain ⟨_, hh', _⟩ | ⟨_, hf', _⟩ | ⟨_, _, hrun⟩ := step_eq s
  · cases hh.symm.trans hh'
  · simp [hf] at hf'
  · obtain ⟨_, _, _, hx', _⟩ | ⟨_, _, _, hh', _⟩ | ⟨_, _, _, hh', _⟩ | ⟨_, _, hs⟩ := hrun
    · cases hx.symm.trans hx'
    · cases hh.symm.trans hh'
    · cases hh.symm.trans hh'
    · exact hs

/-- Settles O16: an illegal word needs no operands to be presented, and its acceptance is fault entry. -/
theorem illegalCommandFaults : Obligations.IllegalCommandFaults := by
  intro s w rest hf hx hh hw
  have ht : step s = .next (({ s with host := rest } : State).raise .illegalCommand) := by
    rw [step_of_command s w rest hf hx hh, if_pos (presents_of_illegal s w hw), accept_of_illegal _ w hw]
  exact ⟨_, ht, rfl, rfl, rfl, ⟨rfl, rfl⟩, ⟨rfl, rfl⟩, rfl, rfl, hx, rfl, rfl⟩

/-- Settles O17, field by field. -/
theorem faultEntryIsExact : Obligations.FaultEntryIsExact := fun s c =>
  ⟨raise_fault s c, raise_faultCause s c, ⟨raise_q0 s c, raise_q1 s c⟩, ⟨raise_rsp s c, raise_rd s c⟩,
    raise_capacity s c, raise_xact s c, raise_resets s c, raise_host s c, raise_wd s c⟩

/-- Settles O23: the length check comes before the beats, and its outcome is fault entry. -/
theorem loadTooLongFaults : Obligations.LoadTooLongFaults := fun q length s h =>
  ⟨_, exec_load_of_over q length s h, rfl, rfl, rfl, ⟨rfl, rfl⟩, ⟨rfl, rfl⟩, rfl, rfl, rfl, rfl, rfl⟩

end Sys2Proof.Machine

/-! Reset and the hazards of time (70_reset_and_hazards.md): a reset takes the reset state at both levels (R230, R232),
and a transaction ends once the host gives its side of every handshake (R241). -/

namespace Sys2Proof.Machine

/-! ### What a reset leaves -/

/-- A reset that the host applies is the next step, whatever else stands (70_reset_and_hazards.md R230). -/
theorem step_of_reset (s : State) (rest : List HostEvent) (h : s.host = .reset :: rest) :
    step s = .next ({ s with host := rest } : State).applyReset := by
  rw [step, State.advance, h]

/-- After a reset every slot holds its own free value of that reset (log 2). -/
theorem read_applyReset (s : State) (q : QueueId) (p : Nat) (hp : p < s.capacity) :
    Memory.read (s.applyReset.queue q).storage p = some (Config.storageInit (s.resets + 1) q.number p) := by
  rw [applyReset_queue]
  exact (read_unspecifiedStorage s.capacity (s.resets + 1) q.number p).trans (if_pos hp)

theorem emptyPins_applyReset (s : State) : s.applyReset.emptyPins = 0b11#2 := by
  simp [State.emptyPins, Queue.isEmpty]

theorem fullPins_applyReset (s : State) (hC : 0 < s.capacity) : s.applyReset.fullPins = 0b00#2 := by
  have hfull : ∀ q, (s.applyReset.queue q).isFull s.capacity = false := fun q => by
    simp [Queue.isFull, hC.ne]
  rw [State.fullPins, ← queue_q0, ← queue_q1, applyReset_capacity, hfull, hfull]
  decide

/-- What an edge with `rst` = 1 drops is not in the queues: they are those of the reset. -/
theorem resetEdge_queue (p : PinState) (q : QueueId) : p.resetEdge.block.queue q = p.block.applyReset.queue q := by
  cases q <;> rfl

/-- After a reset `cmd_ready` is 1 (70_reset_and_hazards.md R232). -/
theorem cmdReady_resetEdge (p : PinState) : p.resetEdge.cmdReady false = true :=
  (cmdReady_iff _).2 ⟨rfl, rfl, rfl, rfl, rfl⟩

/-! ### How many handshakes a transaction still needs -/

/-- The words that have still to pass before the transaction is over: the missing beats of a LOAD and the response it
will give, and what waits to be taken. -/
def State.handshakesLeft (s : State) : Nat :=
  (match s.xact with
    | .idle => 0
    | .loading _ n taken => n - taken.length + 1) + s.rsp.length + s.rd.length

theorem handshakesLeft_of_idle (s : State) (hx : s.xact = .idle) : s.handshakesLeft = s.rsp.length + s.rd.length := by
  simp [State.handshakesLeft, hx]

theorem handshakesLeft_of_loading (s : State) (q : QueueId) (n : Nat) (taken : List Word)
    (hx : s.xact = .loading q n taken) :
    s.handshakesLeft = n - taken.length + 1 + s.rsp.length + s.rd.length := by
  simp [State.handshakesLeft, hx]

/-- A transaction is in progress exactly while a word has still to pass. -/
theorem handshakesLeft_eq_zero_iff (s : State) : s.handshakesLeft = 0 ↔ s.inTransaction = false := by
  rw [inTransaction_eq_false_iff]
  cases hx : s.xact with
  | idle => simp [handshakesLeft_of_idle s hx]
  | loading q n taken => simp [handshakesLeft_of_loading s q n taken hx]

theorem handshakesLeft_lt_of_response (s : State) (r : Response) (rest : List Response) (hq : s.rsp = r :: rest) :
    ({ s with rsp := rest } : State).handshakesLeft < s.handshakesLeft := by
  simp [State.handshakesLeft, hq]

theorem handshakesLeft_lt_of_read (s : State) (v : Word) (rest : List Word) (hd : s.rd = v :: rest) :
    ({ s with rd := rest } : State).handshakesLeft < s.handshakesLeft := by
  simp [State.handshakesLeft, hd]

/-- A beat that a waiting LOAD takes is one word less: it goes on waiting with one beat more, or it answers. -/
theorem exists_takeBeats_handshakesLeft_lt (s : State) (hs : s.Wf) (q : QueueId) (n : Nat) (taken : List Word) (v : Word)
    (hx : s.xact = .loading q n taken) :
    ∃ t, ({ s with wd := [v] } : State).takeBeats q n taken = .next t ∧ t.handshakesLeft < s.handshakesLeft := by
  obtain ⟨hn, hlt⟩ := loading_wf s hs q n taken hx
  rw [handshakesLeft_of_loading s q n taken hx]
  by_cases hmore : taken.length + 1 < n
  · refine ⟨_, takeBeats_of_missing q n taken { s with wd := [v] } hmore, ?_⟩
    rw [handshakesLeft_of_loading _ q n (taken ++ [v]) rfl]
    simp only [List.length_append, List.length_singleton]
    omega
  · obtain ⟨m, _, ht⟩ := takeBeats_of_enough q n taken { s with wd := [v] } hs hn hlt.le (Nat.not_lt.1 hmore)
    refine ⟨_, ht, ?_⟩
    rw [handshakesLeft_of_idle _ (by simp)]
    simp only [respond_rsp, respond_rd, setQueue_rsp, setQueue_rd, List.length_append, List.length_singleton]
    omega

/-! ### A host that gives its handshakes -/

/-- The host gives its side of every handshake at this edge and no reset. A command is not spoken of: none passes inside
a transaction (30_encoding.md R72). -/
structure PinsIn.Serves (i : PinsIn) : Prop where
  noReset : i.rst = false
  beat : i.wd ≠ none
  takesResponse : i.rspReady = true
  takesRead : i.rdReady = true

/-- While words have still to pass every edge of such a host makes progress: a word passes, or the block computes for
one cycle less (70_reset_and_hazards.md R236, R241). -/
theorem edge_of_serves (p : PinState) (i : PinsIn) (pace : Nat) (hp : p.Wf) (hi : i.Serves)
    (hleft : p.block.handshakesLeft ≠ 0) :
    ∃ p', p.edge i pace = .next p' ∧ (p'.block.handshakesLeft < p.block.handshakesLeft ∨
      p'.block.handshakesLeft = p.block.handshakesLeft ∧ p'.working < p.working) := by
  obtain ⟨hr, hwd, hy, hz⟩ := hi
  cases hw : p.working with
  | succ n => exact ⟨_, edge_of_working p i pace n hr hw, .inr ⟨rfl, Nat.lt_succ_self n⟩⟩
  | zero =>
    cases hx : p.block.xact with
    | loading q n taken =>
      obtain ⟨v, hv⟩ := Option.ne_none_iff_exists'.1 hwd
      obtain ⟨t, ht, hlt⟩ := exists_takeBeats_handshakesLeft_lt p.block hp.1 q n taken v hx
      have he := edge_of_beat p i pace q n taken v hr hw hx hv
      rw [ht] at he
      exact ⟨_, he, .inl hlt⟩
    | idle =>
      cases hq : p.block.rsp with
      | cons r rest =>
        exact ⟨_, edge_of_response p i pace r rest hr hw hx hq hy,
          .inl (handshakesLeft_lt_of_response p.block r rest hq)⟩
      | nil =>
        cases hd : p.block.rd with
        | cons v rest =>
          exact ⟨_, edge_of_read p i pace v rest hr hw hx hq hd hz,
            .inl (handshakesLeft_lt_of_read p.block v rest hd)⟩
        | nil => simp [handshakesLeft_of_idle p.block hx, hq, hd] at hleft

/-- The edges of a host, one at a time. -/
theorem feed_range_succ {p u : PinState} (env : Nat → PinsIn × Nat) (N : Nat)
    (h : p.edge (env 0).1 (env 0).2 = .next u) :
    p.feed ((List.range (N + 1)).map env) = u.feed ((List.range N).map fun k => env (k + 1)) := by
  rw [List.range_succ_eq_map, List.map_cons, List.map_map, feed_cons_of_edge _ h]
  rfl

/-- With such a host the block comes to rest: the words left to pass and then the cycles left to compute decrease. -/
theorem feed_reaches_rest (p : PinState) (env : Nat → PinsIn × Nat) (hp : p.Wf) (henv : ∀ k, (env k).1.Serves) :
    ∃ N p', p.feed ((List.range N).map env) = .next p' ∧ p'.block.inTransaction = false ∧ p'.working = 0 := by
  by_cases hleft : p.block.handshakesLeft = 0
  · obtain ⟨_, _, _, hwork⟩ := hp
    have hrest := (handshakesLeft_eq_zero_iff p.block).1 hleft
    exact ⟨0, p, rfl, hrest, not_not.1 (mt hwork (Bool.eq_false_iff.1 hrest))⟩
  · obtain ⟨u, he, hless⟩ := edge_of_serves p (env 0).1 (env 0).2 hp (henv 0) hleft
    obtain ⟨N, p', hfeed, hrest⟩ :=
      feed_reaches_rest u (fun k => env (k + 1)) (edge_wf p u _ _ hp he) fun k => henv (k + 1)
    exact ⟨N + 1, p', (feed_range_succ env N he).trans hfeed, hrest⟩
termination_by (p.block.handshakesLeft, p.working)
decreasing_by exact Prod.lex_def.2 hless

/-! ### The obligations -/

/-- Settles O58: the cycles of computing are counted down, and between them every edge passes one of the words left. -/
theorem transactionsTakeFinitelyManyCycles : Obligations.TransactionsTakeFinitelyManyCycles := by
  refine ⟨fun p js hjs => feed_computing js hjs p, fun p env hp henv => feed_reaches_rest p env hp fun k => ?_⟩
  obtain ⟨hr, _, hwd, hy, hz⟩ := henv k
  exact ⟨hr, hwd, hy, hz⟩

/-- Settles O20, register by register and pin by pin. -/
theorem resetTakesTheResetState : Obligations.ResetTakesTheResetState := by
  refine ⟨fun s rest hh => ?_, fun p i pace hp hr => ?_⟩
  · exact ⟨_, step_of_reset s rest hh, rfl, rfl, rfl, rfl, rfl, rfl, rfl, rfl, rfl, rfl, rfl, rfl,
      read_applyReset { s with host := rest }⟩
  · refine ⟨_, edge_of_reset p i pace hr, rfl, rfl, rfl, rfl, rfl, rfl, rfl, rfl, rfl, rfl, rfl,
      cmdReady_resetEdge p, rfl, rfl, rfl, emptyPins_applyReset p.block,
      fullPins_applyReset p.block (wf_capacity_pos p.block hp.1), rfl, rfl, fun q k hk => ?_⟩
    rw [resetEdge_queue]
    exact read_applyReset p.block q k hk

end Sys2Proof.Machine
